-- ==== Sys2Proof/Word.lean ====
section
/-! DEFINITION. The word types of the frame codec: bytes (00_scope.md R5), the 10-bit host operation word
(30_encoding.md R66) and the 13-bit decode key (30_encoding.md R69). -/

namespace Sys2Proof

/-- A byte: the unit of every transfer into or out of the block (20_memory.md R43). -/
abbrev Byte := BitVec 8

/-- A host operation word `W`, `OP` in bits 9..8 and `DATA` in bits 7..0 (30_encoding.md R66). -/
abbrev OpWord := BitVec 10

/-- A decode key `K`: unit state in bits 12..10, `OP` in bits 9..8, `DATA` in bits 7..0 (30_encoding.md R69). -/
abbrev Key := BitVec 13

end Sys2Proof
end

