-- ==== Sys2Proof/Syntax.lean ====
section
/-! DEFINITION. The names of the spec as types: the states of the two units (10_state.md R21, R27), the four
operation codes (30_encoding.md R66), and the instruction type, one constructor per row of opcode_table.json
(30_encoding.md R70, R71). -/

namespace Sys2Proof

/-- The decoder's five states (10_state.md R21). The encodings 101, 110 and 111 name no state (R67). -/
inductive DecState where
  /-- `Idle`: waiting for the first header byte. -/
  | idle
  /-- `Header2`: waiting for the second header byte. -/
  | header2
  /-- `HeaderOk`: the next byte is `LEN`. -/
  | headerOk
  /-- `Receiving`: accumulating payload bytes. -/
  | receiving
  /-- `WaitCSum`: the next byte is the checksum. -/
  | waitCSum
  deriving DecidableEq, Repr

/-- The encoder's two states (10_state.md R27). -/
inductive EncState where
  /-- `EIdle`: no frame is being encoded. -/
  | eIdle
  /-- `EPayload`: header and length are out, payload bytes are expected. -/
  | ePayload
  deriving DecidableEq, Repr

/-- The four operation codes, all assigned (30_encoding.md R66). -/
inductive OpCode where
  | rx
  | encStart
  | encData
  | reset
  deriving DecidableEq, Repr

/-- One constructor per row of the opcode table (30_encoding.md R70, R71). The argument is the row's `DATA` byte
where the row's mask leaves it open. -/
inductive Instr where
  /-- `D_IDLE_SYNC1` (41_decoder.md R91); `DATA` is fixed to 0x55. -/
  | dIdleSync1
  /-- `D_IDLE_OTHER` (R92). -/
  | dIdleOther (b : Byte)
  /-- `D_H2_SYNC2` (R93); `DATA` is fixed to 0xAA. -/
  | dH2Sync2
  /-- `D_H2_OTHER` (R94). -/
  | dH2Other (b : Byte)
  /-- `D_HOK_LEN_PAYLOAD` (R95). -/
  | dHokLenPayload (b : Byte)
  /-- `D_HOK_LEN_EMPTY` (R96). -/
  | dHokLenEmpty (b : Byte)
  /-- `D_RECV_MORE` (R97). -/
  | dRecvMore (b : Byte)
  /-- `D_RECV_LAST` (R98). -/
  | dRecvLast (b : Byte)
  /-- `D_WAIT_MATCH` (R99). -/
  | dWaitMatch (b : Byte)
  /-- `D_WAIT_MISMATCH` (R100). -/
  | dWaitMismatch (b : Byte)
  /-- `E_START` (42_encoder.md R111); `n` is the payload length. -/
  | eStart (n : Byte)
  /-- `E_START_EMPTY` (R112); `DATA` is fixed to 0. -/
  | eStartEmpty
  /-- `E_START_BUSY` (R113). -/
  | eStartBusy (n : Byte)
  /-- `E_START_RANGE` (R114). -/
  | eStartRange (n : Byte)
  /-- `E_DATA_MORE` (R115). -/
  | eDataMore (b : Byte)
  /-- `E_DATA_LAST` (R116). -/
  | eDataLast (b : Byte)
  /-- `E_DATA_IDLE` (R117). -/
  | eDataIdle (b : Byte)
  /-- `RESET` (43_control.md R125); `DATA` is ignored, every value resets. -/
  | reset (data : Byte)
  deriving DecidableEq, Repr

end Sys2Proof
end

