-- ==== Sys2Proof/Config.lean ====
section
/-! DEFINITION. The block's fixed parameters (00_scope.md R5) and the free values: constants without a body, so
that nothing can be proved about what they are. -/

namespace Sys2Proof.Config

/-- `SYNC1`, the first header byte (R5). -/
abbrev sync1 : Byte := 0x55

/-- `SYNC2`, the second header byte (R5). -/
abbrev sync2 : Byte := 0xAA

/-- `LEN_OFFSET`: the length byte is the payload length plus 4 (R5, 30_encoding.md R61). -/
abbrev lenOffset : Nat := 4

/-- `MAX_PAYLOAD` (R5). -/
abbrev maxPayload : Nat := 251

/-- `BUF_DEPTH`: the payload buffer's indices are 0..250 (R5, 20_memory.md R40). -/
abbrev bufDepth : Nat := 251

/-! ### What `RESET` leaves in the registers whose reset value is unspecified
10_state.md R33, 43_control.md R125: "unspecified (any value)". Each is a function of the draw number, so that two
resets need not agree. DESIGN CHOICE (log entry 5); safe. -/

/-- Free value of `DEC_LEN`. -/
opaque freeDecLen : Nat → Byte

/-- Free value of `DEC_ACC`. -/
opaque freeDecAcc : Nat → Byte

/-- Free value of `DEC_CNT`, within the bound 0..251 of 10_state.md R24. -/
opaque freeDecCnt : Nat → Fin 252

/-- Free value of `BUF[i]`: draw number, then index. -/
opaque freeBuf : Nat → Nat → Byte

/-- Free value of `ENC_REM`. -/
opaque freeEncRem : Nat → Byte

/-- Free value of `ENC_ACC`. -/
opaque freeEncAcc : Nat → Byte

/-! ### Outputs the register level leaves unspecified (10_state.md R34, 70_reset_and_hazards.md R145)
Functions of the cycle number. DESIGN CHOICE (log entry 13); safe. -/

/-- `ev_code` outside an `ev_valid` cycle, as an index into the codes 0, 1, 2: code 3 is never produced
(93_implementation_defined.md, reserved encodings). -/
opaque freeEvCode : Nat → Fin 3

/-- `ev_len` where no `FRAME` is pulsed. -/
opaque freeEvLen : Nat → Byte

/-- `ev_computed` where no `CSUM_MISMATCH` is pulsed. -/
opaque freeEvComputed : Nat → Byte

/-- `ev_received` where no `CSUM_MISMATCH` is pulsed. -/
opaque freeEvReceived : Nat → Byte

/-- `tx_data` where `tx_valid` is 0. -/
opaque freeTxData : Nat → Byte

/-- `buf_rdata` at an index of 251 or more: cycle number, then the index. -/
opaque freeBufRdata : Nat → Byte → Byte

end Sys2Proof.Config
end

