-- ==== Sys2Proof/WellFormed.lean ====
section
/-! DEFINITION. Well-formed instructions: the conditions of the opcode-table rows on their own `DATA` byte
(30_encoding.md R70, R71). Conditions that read registers are `Instr.cond` in Decode.lean. -/

namespace Sys2Proof

/-- The row's condition on its own operand. -/
def Instr.wellFormed : Instr → Bool
  | .dIdleSync1 => true
  | .dIdleOther b => b != Config.sync1
  | .dH2Sync2 => true
  | .dH2Other b => b != Config.sync2
  | .dHokLenPayload b => decide (5 ≤ b.toNat)
  | .dHokLenEmpty b => decide (b.toNat ≤ 4)
  | .dRecvMore _ => true
  | .dRecvLast _ => true
  | .dWaitMatch _ => true
  | .dWaitMismatch _ => true
  | .eStart n => decide (1 ≤ n.toNat ∧ n.toNat ≤ Config.maxPayload)
  | .eStartEmpty => true
  | .eStartBusy _ => true
  | .eStartRange n => decide (252 ≤ n.toNat)
  | .eDataMore _ => true
  | .eDataLast _ => true
  | .eDataIdle _ => true
  | .reset _ => true

end Sys2Proof
end

