-- ==== Sys2Proof/Decode.lean ====
section
/-! DEFINITION. From bits to instructions and back (30_encoding.md R66 to R72): the fields of the operation word and
of the decode key, the state encodings, the decoder of keys (total, rejecting by name), the encoder, and the opcode
table itself as a list of rows. -/

namespace Sys2Proof

/-! ### Operation codes and words (R66) -/

/-- `OP`: 00 `RX`, 01 `ENC_START`, 10 `ENC_DATA`, 11 `RESET`. -/
def OpCode.bits : OpCode → BitVec 2
  | .rx => 0b00
  | .encStart => 0b01
  | .encData => 0b10
  | .reset => 0b11

/-- Every value of `OP` is assigned (R66). -/
def OpCode.ofBits (v : BitVec 2) : OpCode :=
  if v = 0b00 then .rx else if v = 0b01 then .encStart else if v = 0b10 then .encData else .reset

/-- `W = {OP, DATA}`. -/
def opWord (op : OpCode) (data : Byte) : OpWord := op.bits ++ data

/-- The operation of a word. -/
def wordOp (w : OpWord) : OpCode := OpCode.ofBits (w.extractLsb' 8 2)

/-- The operand of a word, an unsigned byte. -/
def wordData (w : OpWord) : Byte := w.extractLsb' 0 8

/-- `RX(b)`. -/
def rxWord (b : Byte) : OpWord := opWord .rx b

/-- `ENC_START(n)`. -/
def encStartWord (n : Byte) : OpWord := opWord .encStart n

/-- `ENC_DATA(b)`. -/
def encDataWord (b : Byte) : OpWord := opWord .encData b

/-- `RESET`, with `DATA` as the assembler writes it (R74). -/
def resetWord : OpWord := opWord .reset 0

/-! ### State encodings (R67, R68) -/

/-- `DEC_STATE` as three bits (R67). -/
def DecState.bits : DecState → BitVec 3
  | .idle => 0b000
  | .header2 => 0b001
  | .headerOk => 0b010
  | .receiving => 0b011
  | .waitCSum => 0b100

/-- The state of an encoding; 101, 110 and 111 name none (R67, R72). -/
def DecState.ofBits (v : BitVec 3) : Option DecState :=
  if v = 0b000 then some .idle
  else if v = 0b001 then some .header2
  else if v = 0b010 then some .headerOk
  else if v = 0b011 then some .receiving
  else if v = 0b100 then some .waitCSum
  else none

/-- `ENC_STATE` as one bit (R68). -/
def EncState.bit : EncState → BitVec 1
  | .eIdle => 0
  | .ePayload => 1

/-- The key's state field of an encoder operation, `{0, 0, ENC_STATE}` (R69). -/
def EncState.bits (e : EncState) : BitVec 3 := 0#2 ++ e.bit

/-- The encoder state of a key's state field, none where the two upper bits are not zero. -/
def EncState.ofBits (v : BitVec 3) : Option EncState :=
  if v = 0b000 then some .eIdle else if v = 0b001 then some .ePayload else none

/-! ### The decode key (R69) -/

/-- `K = {state, OP, DATA}`. -/
def mkKey (st : BitVec 3) (op : OpCode) (data : Byte) : Key := st ++ op.bits ++ data

/-- `K[12:10]`. -/
def keyState (k : Key) : BitVec 3 := k.extractLsb' 10 3

/-- `K[9:8]`, as an operation. -/
def keyOp (k : Key) : OpCode := OpCode.ofBits (k.extractLsb' 8 2)

/-- `K[7:0]`. -/
def keyData (k : Key) : Byte := k.extractLsb' 0 8

/-- The operation word inside a key, `K[9:0]`. -/
def keyWord (k : Key) : OpWord := k.extractLsb' 0 10

/-! ### The registers the rows' conditions read (R70, R71) -/

/-- The registers that a row's `cond` may read beside `DATA`. -/
structure CondRegs where
  decLen : Byte
  decAcc : Byte
  decCnt : Fin 252
  encRem : Byte
  deriving DecidableEq, Repr

/-- The `cond` of the `Receiving` rows: `DEC_CNT + 5 < DEC_LEN`, over the naturals (R70, 00_scope.md R7). -/
def CondRegs.morePayload (r : CondRegs) : Bool := decide (r.decCnt.val + 5 < r.decLen.toNat)

/-- The `cond` of a row on the unit's registers. -/
def Instr.cond (r : CondRegs) : Instr → Bool
  | .dIdleSync1 => true
  | .dIdleOther _ => true
  | .dH2Sync2 => true
  | .dH2Other _ => true
  | .dHokLenPayload _ => true
  | .dHokLenEmpty _ => true
  | .dRecvMore _ => r.morePayload
  | .dRecvLast _ => !r.morePayload
  | .dWaitMatch b => b == r.decAcc
  | .dWaitMismatch b => b != r.decAcc
  | .eStart _ => true
  | .eStartEmpty => true
  | .eStartBusy _ => true
  | .eStartRange _ => true
  | .eDataMore _ => decide (2 ≤ r.encRem.toNat)
  | .eDataLast _ => r.encRem == 1
  | .eDataIdle _ => true
  | .reset _ => true

/-! ### Decoding -/

/-- Why a key selects no row. None of these is reachable from reset (R69, R71, R72). -/
inductive DecodeReject where
  /-- An `RX` key whose `K[12:10]` is 101, 110 or 111, the unused values of `DEC_STATE` (R67, R72). -/
  | reservedDecState
  /-- An encoder key whose `K[12:11]` is not zero: no row's pattern has it (R69, R71). -/
  | reservedEncState
  /-- `ENC_DATA` in `EPayload` with `ENC_REM = 0`: neither `E_DATA_MORE` nor `E_DATA_LAST` selects (R71). -/
  | noPayloadExpected
  deriving DecidableEq, Repr

/-- The `RX` row of a decoder state, a byte and the condition registers (R70). -/
def decodeRx (r : CondRegs) (st : DecState) (b : Byte) : Instr :=
  match st with
  | .idle => if b = Config.sync1 then .dIdleSync1 else .dIdleOther b
  | .header2 => if b = Config.sync2 then .dH2Sync2 else .dH2Other b
  | .headerOk => if 5 ≤ b.toNat then .dHokLenPayload b else .dHokLenEmpty b
  | .receiving => if r.morePayload then .dRecvMore b else .dRecvLast b
  | .waitCSum => if b = r.decAcc then .dWaitMatch b else .dWaitMismatch b

/-- The `ENC_START` row of an encoder state and a length (R71). -/
def decodeEncStart (st : EncState) (n : Byte) : Instr :=
  match st with
  | .eIdle => if n = 0 then .eStartEmpty else if n.toNat ≤ Config.maxPayload then .eStart n else .eStartRange n
  | .ePayload => .eStartBusy n

/-- The `ENC_DATA` row of an encoder state and a byte (R71). -/
def decodeEncData (r : CondRegs) (st : EncState) (b : Byte) : Except DecodeReject Instr :=
  match st with
  | .eIdle => .ok (.eDataIdle b)
  | .ePayload =>
    if 2 ≤ r.encRem.toNat then .ok (.eDataMore b)
    else if r.encRem = 1 then .ok (.eDataLast b)
    else .error .noPayloadExpected

/-- The row that a key selects, given the registers the conditions read: total, rejecting by name (R69). -/
def decode (r : CondRegs) (k : Key) : Except DecodeReject Instr :=
  match keyOp k with
  | .rx =>
    match DecState.ofBits (keyState k) with
    | some st => .ok (decodeRx r st (keyData k))
    | none => .error .reservedDecState
  | .encStart =>
    match EncState.ofBits (keyState k) with
    | some st => .ok (decodeEncStart st (keyData k))
    | none => .error .reservedEncState
  | .encData =>
    match EncState.ofBits (keyState k) with
    | some st => decodeEncData r st (keyData k)
    | none => .error .reservedEncState
  | .reset => .ok (.reset (keyData k))

/-! ### Encoding -/

/-- The operation of a row. -/
def Instr.op : Instr → OpCode
  | .dIdleSync1 | .dIdleOther _ | .dH2Sync2 | .dH2Other _ | .dHokLenPayload _ | .dHokLenEmpty _
  | .dRecvMore _ | .dRecvLast _ | .dWaitMatch _ | .dWaitMismatch _ => .rx
  | .eStart _ | .eStartEmpty | .eStartBusy _ | .eStartRange _ => .encStart
  | .eDataMore _ | .eDataLast _ | .eDataIdle _ => .encData
  | .reset _ => .reset

/-- The `DATA` byte of a row. -/
def Instr.data : Instr → Byte
  | .dIdleSync1 => Config.sync1
  | .dH2Sync2 => Config.sync2
  | .eStartEmpty => 0
  | .dIdleOther b | .dH2Other b | .dHokLenPayload b | .dHokLenEmpty b | .dRecvMore b | .dRecvLast b
  | .dWaitMatch b | .dWaitMismatch b => b
  | .eStart n | .eStartBusy n | .eStartRange n => n
  | .eDataMore b | .eDataLast b | .eDataIdle b => b
  | .reset data => data

/-- The state field `K[12:10]` of a row. `RESET` does not care; zeros are written (log entry 12). -/
def Instr.stateBits : Instr → BitVec 3
  | .dIdleSync1 | .dIdleOther _ => DecState.idle.bits
  | .dH2Sync2 | .dH2Other _ => DecState.header2.bits
  | .dHokLenPayload _ | .dHokLenEmpty _ => DecState.headerOk.bits
  | .dRecvMore _ | .dRecvLast _ => DecState.receiving.bits
  | .dWaitMatch _ | .dWaitMismatch _ => DecState.waitCSum.bits
  | .eStart _ | .eStartEmpty | .eStartRange _ | .eDataIdle _ => EncState.eIdle.bits
  | .eStartBusy _ | .eDataMore _ | .eDataLast _ => EncState.ePayload.bits
  | .reset _ => 0

/-- The decode key of an instruction (R69 to R71). -/
def encode (i : Instr) : Key := mkKey i.stateBits i.op i.data

/-- The host operation word of an instruction (R66). -/
def encodeWord (i : Instr) : OpWord := opWord i.op i.data

/-! ### The opcode table as the spec writes it (R69 to R71) -/

/-- A row: `pattern` (the table's match), `mask`, and `cond` over the registers and `DATA`; `build` names the
instruction the row stands for. -/
structure Row where
  mnemonic : String
  pattern : Key
  mask : Key
  cond : CondRegs → Byte → Bool
  build : Byte → Instr

/-- A row selects when `(K & mask) == match` and its `cond` holds (R69). -/
def Row.selects (row : Row) (r : CondRegs) (k : Key) : Bool :=
  (k &&& row.mask) == row.pattern && row.cond r (keyData k)

/-- A row with no `cond`. -/
def Row.always : CondRegs → Byte → Bool := fun _ _ => true

/-- The decoder's rows (R70). -/
def rxRows : List Row := [
  ⟨"D_IDLE_SYNC1", 0x0055, 0x1FFF, Row.always, fun _ => .dIdleSync1⟩,
  ⟨"D_IDLE_OTHER", 0x0000, 0x1F00, fun _ d => d != 0x55, .dIdleOther⟩,
  ⟨"D_H2_SYNC2", 0x04AA, 0x1FFF, Row.always, fun _ => .dH2Sync2⟩,
  ⟨"D_H2_OTHER", 0x0400, 0x1F00, fun _ d => d != 0xAA, .dH2Other⟩,
  ⟨"D_HOK_LEN_PAYLOAD", 0x0800, 0x1F00, fun _ d => decide (d.toNat ≥ 5), .dHokLenPayload⟩,
  ⟨"D_HOK_LEN_EMPTY", 0x0800, 0x1F00, fun _ d => decide (d.toNat ≤ 4), .dHokLenEmpty⟩,
  ⟨"D_RECV_MORE", 0x0C00, 0x1F00, fun r _ => decide (r.decCnt.val + 5 < r.decLen.toNat), .dRecvMore⟩,
  ⟨"D_RECV_LAST", 0x0C00, 0x1F00, fun r _ => decide (r.decCnt.val + 5 ≥ r.decLen.toNat), .dRecvLast⟩,
  ⟨"D_WAIT_MATCH", 0x1000, 0x1F00, fun r d => d == r.decAcc, .dWaitMatch⟩,
  ⟨"D_WAIT_MISMATCH", 0x1000, 0x1F00, fun r d => d != r.decAcc, .dWaitMismatch⟩]

/-- The encoder's rows and `RESET` (R71). -/
def encRows : List Row := [
  ⟨"E_START", 0x0100, 0x1F00, fun _ d => decide (1 ≤ d.toNat ∧ d.toNat ≤ 251), .eStart⟩,
  ⟨"E_START_EMPTY", 0x0100, 0x1FFF, Row.always, fun _ => .eStartEmpty⟩,
  ⟨"E_START_BUSY", 0x0500, 0x1F00, Row.always, .eStartBusy⟩,
  ⟨"E_START_RANGE", 0x01FC, 0x1FFC, Row.always, .eStartRange⟩,
  ⟨"E_DATA_MORE", 0x0600, 0x1F00, fun r _ => decide (r.encRem.toNat ≥ 2), .eDataMore⟩,
  ⟨"E_DATA_LAST", 0x0600, 0x1F00, fun r _ => decide (r.encRem.toNat = 1), .eDataLast⟩,
  ⟨"E_DATA_IDLE", 0x0200, 0x1F00, Row.always, .eDataIdle⟩,
  ⟨"RESET", 0x0300, 0x0300, Row.always, .reset⟩]

/-- The 18 rows, in the table's order. -/
def opcodeTable : List Row := rxRows ++ encRows

/-! ### The table's words (fixed interface of the row) -/

/-- The registers with which a bare table word is read: three rows' conditions look at registers that no bit of the
key holds, so a key alone does not select between `D_RECV_MORE` and `D_RECV_LAST`, `D_WAIT_MATCH` and
`D_WAIT_MISMATCH`, `E_DATA_MORE` and `E_DATA_LAST`. DESIGN CHOICE (log entry 11). -/
def tableRegs : CondRegs := { decLen := 5, decAcc := 0, decCnt := 0, encRem := 1 }

/-- The key that a table word of `nbits` bits stands for, none where a bit above the 13 of the key is set. -/
def tableKey (nbits w : Nat) : Option Key :=
  if w % 2 ^ nbits < 2 ^ 13 then some (BitVec.ofNat 13 (w % 2 ^ nbits)) else none

/-- The instruction the decoder reads from a table word: the key is the word, the registers are `tableRegs`. -/
def decodeTableWord (nbits w : Nat) : Option Instr :=
  match tableKey nbits w with
  | none => none
  | some k =>
    match decode tableRegs k with
    | .ok i => some i
    | .error _ => none

end Sys2Proof
end

