-- ==== Sys2Proof/Machine/State.lean ====
section
/-! DEFINITION. The state of the frame codec as plain data (10_state.md), its reset value (10_state.md R33), the
output record of a step (R31), and the reasons a step can stop. -/

namespace Sys2Proof.Machine

/-- The three host protocol violations (10_state.md R31, 60_exceptions.md R130). -/
inductive FaultCode where
  /-- `ENC_BUSY`: `ENC_START` while `EPayload`. -/
  | encBusy
  /-- `ENC_LEN_RANGE`: `ENC_START(n)` with `n > 251` while `EIdle`. -/
  | encLenRange
  /-- `ENC_IDLE`: `ENC_DATA` while `EIdle`. -/
  | encIdle
  deriving DecidableEq, Repr

/-- The decoder's event of a step (10_state.md R31). -/
inductive RxEvent where
  /-- `NONE`. -/
  | none
  /-- `FRAME(payload)`. -/
  | frame (payload : List Byte)
  /-- `CSUM_MISMATCH(computed, received)`. -/
  | csumMismatch (computed received : Byte)
  deriving DecidableEq, Repr

/-- The record a step returns (10_state.md R31): the decoder's event, the frame bytes the encoder emits in wire
order, and the host protocol violation of the step if there is one. -/
structure Out where
  rx : RxEvent
  tx : List Byte
  fault : Option FaultCode
  deriving DecidableEq, Repr

/-- The record of a step that emits nothing and raises nothing. -/
def Out.silent : Out := { rx := .none, tx := [], fault := none }

/-- The payload buffer `BUF` (10_state.md R25, 20_memory.md R40) as (index, byte) cells. The canonical form,
`Memory.wf` in Ops.lean: indices strictly rising, below 251, and no cell equal to what an unlisted index reads as. -/
abbrev Memory := List Host.Cell

/-- The state: the registers of 10_state.md R20, then the outputs and ghosts the spec gives the model, then the
model's own fields. -/
structure State where
  /-- `DEC_STATE` (R21). -/
  decState : DecState
  /-- `DEC_LEN` (R22). -/
  decLen : Byte
  /-- `DEC_ACC` (R23). -/
  decAcc : Byte
  /-- `DEC_CNT`, values 0..251 (R24, R26). -/
  decCnt : Fin 252
  /-- `BUF` (R25). -/
  buf : Memory
  /-- `ENC_STATE` (R27). -/
  encState : EncState
  /-- `ENC_REM` (R28). -/
  encRem : Byte
  /-- `ENC_ACC` (R28). -/
  encAcc : Byte
  /-- `ERR`, sticky (R30): bit 0 `ERR_ENC_BUSY`, bit 1 `ERR_ENC_LEN_RANGE`, bit 2 `ERR_ENC_IDLE`. -/
  err : BitVec 3
  /-- The `Out` record of the last step (R31; log entry 3). -/
  out : Out
  /-- The run's `rx` events other than NONE, oldest first (70_reset_and_hazards.md R150; log entry 3). -/
  rxEvents : List RxEvent
  /-- The run's `tx` bytes, concatenated (R150; log entry 3). -/
  txBytes : List Byte
  /-- The fault log that no step clears, oldest first (60_exceptions.md R132). -/
  faultLog : List FaultCode
  /-- The host's queued operation words, next first. DESIGN CHOICE (log entry 1). -/
  pending : List OpWord
  /-- How many times free values have been drawn. The model's own; DESIGN CHOICE (log entry 5). -/
  draws : Nat
  deriving DecidableEq, Repr

/-- The state after power-on reset (10_state.md R33): `Idle`, `EIdle`, `ERR = 0b000`. The registers whose reset
value R33 leaves unspecified hold zero, and so does every entry of `BUF`. DESIGN CHOICE (log entries 4 and 6);
unsafe for a claim that rests on those zeros. The traces are empty and no operation is queued. -/
def State.reset : State where
  decState := .idle
  decLen := 0
  decAcc := 0
  decCnt := 0
  buf := []
  encState := .eIdle
  encRem := 0
  encAcc := 0
  err := 0
  out := Out.silent
  rxEvents := []
  txBytes := []
  faultLog := []
  pending := []
  draws := 0

/-- Faults: where the machine stops. The spec's own faults do not stop it (60_exceptions.md R132); they are next
states made by `raiseFault`. -/
inductive Fault where
  /-- `BufWrite` at an index that names no entry of `BUF` (20_memory.md R40): raised by `D_RECV_LAST` with
  `DEC_CNT = 251`. No reachable state raises it (10_state.md R26). Safe (log entry 7). -/
  | bufIndex (index : Nat)
  deriving DecidableEq, Repr

/-- Refusals: no meaning for what was asked. No step from a state reachable from reset raises one. -/
inductive Refusal where
  /-- An instruction without a meaning; no arm of `exec` uses it. Safe. -/
  | notModelled (mnemonic : String)
  /-- A row applied in a state where the row's condition does not hold, which no step does (30_encoding.md R69).
  Raised by the meanings. Safe (log entry 10). -/
  | rowNotSelected
  /-- The operation's key selects no row (30_encoding.md R69, R72). Raised by `applyOp`. Safe (log entries 8, 9). -/
  | noRow (why : DecodeReject)
  deriving DecidableEq, Repr

/-- What applying an operation, or an instruction, answers. -/
abbrev Result := Host.Outcome State Fault Refusal

end Sys2Proof.Machine
end

