-- ==== Sys2Proof/Machine/Checksum.lean ====
section
/-! DEFINITION. The checksum generator (40_checksum.md R80 to R83): the two micro-operations, the comparison, and the
closed form. One definition serves both instances (R85). -/

namespace Sys2Proof.Machine

/-- `CSG_SEED`: the accumulator is loaded with the length byte (R80). -/
def csgSeed (v : Byte) : Byte := v

/-- `CSG_ACC`: `(acc + b) mod 256`, the carry out of bit 7 discarded (R81). -/
def csgAcc (acc b : Byte) : Byte := BitVec.ofNat 8 ((acc.toNat + b.toNat) % 256)

/-- `CSG_MATCH`: all eight bits are equal (R83). -/
def csgMatch (acc r : Byte) : Bool := acc == r

/-- `sum(p)`, over the unbounded naturals (00_scope.md R8). -/
def byteSum : List Byte → Nat
  | [] => 0
  | b :: p => b.toNat + byteSum p

/-- `csum(LEN, p) = (LEN + sum(p)) mod 256` (R82). -/
def csum (len : Byte) (p : List Byte) : Byte := BitVec.ofNat 8 ((len.toNat + byteSum p) % 256)

end Sys2Proof.Machine
end

