-- ==== Sys2Proof/Machine/Flags.lean ====
section
/-! DEFINITION. The bits of the sticky error register `ERR` (10_state.md R30, 60_exceptions.md R130, R132) and the
event codes (10_state.md R31). -/

namespace Sys2Proof.Machine

/-- `bit(code)`: `ENC_BUSY` 0, `ENC_LEN_RANGE` 1, `ENC_IDLE` 2 (60_exceptions.md R132). -/
def FaultCode.bit : FaultCode → Nat
  | .encBusy => 0
  | .encLenRange => 1
  | .encIdle => 2

/-- `ERR` with the bit of `code` set and the other bits left alone (10_state.md R30). -/
def setErr (err : BitVec 3) (code : FaultCode) : BitVec 3 := err ||| BitVec.twoPow 3 code.bit

/-- Whether the bit of `code` is set. -/
def errSet (err : BitVec 3) (code : FaultCode) : Bool := err.getLsbD code.bit

/-- The event codes `NONE = 0`, `FRAME = 1`, `CSUM_MISMATCH = 2` (10_state.md R31, 60_exceptions.md R130). -/
def RxEvent.code : RxEvent → BitVec 2
  | .none => 0
  | .frame _ => 1
  | .csumMismatch _ _ => 2

end Sys2Proof.Machine
end

