-- ==== Sys2Proof/Machine/Operands.lean ====
section
/-! DEFINITION. The operand of an operation and the key it is selected by: what an operation word means in a state
(30_encoding.md R66, R69). -/

namespace Sys2Proof.Machine

/-- The registers the rows' conditions read (30_encoding.md R70, R71). -/
@[reducible] def State.condRegs (s : State) : CondRegs :=
  { decLen := s.decLen, decAcc := s.decAcc, decCnt := s.decCnt, encRem := s.encRem }

/-- `K[12:10]`: the state of the unit the operation addresses. `RESET` does not care; zeros (R69; log entry 12). -/
def State.unitBits (s : State) : OpCode → BitVec 3
  | .rx => s.decState.bits
  | .encStart => s.encState.bits
  | .encData => s.encState.bits
  | .reset => 0

/-- The decode key of an operation word in a state (R69). -/
def formKey (s : State) (w : OpWord) : Key := mkKey (s.unitBits (wordOp w)) (wordOp w) (wordData w)

/-- The row an operation word selects in a state. -/
def selectRow (s : State) (w : OpWord) : Except DecodeReject Instr := decode s.condRegs (formKey s w)

end Sys2Proof.Machine
end

