-- ==== Sys2Proof/Machine/Ops.lean ====
section
/-! DEFINITION. The shared operations: the payload buffer's reads and writes (20_memory.md R40, 00_scope.md R9), the
outputs of a step (`emit_rx`, `emit_tx`), raising a fault (60_exceptions.md R132), and the guard of a row. -/

namespace Sys2Proof.Machine

/-! ### The payload buffer -/

/-- What an index that no cell lists reads as: the power-on contents, which the spec leaves unspecified.
DESIGN CHOICE (log entry 6); unsafe. -/
def bufUnlisted : Byte := 0

/-- `BufRead(i)`. -/
def Memory.read : Memory → Nat → Byte
  | [], _ => bufUnlisted
  | (k, v) :: m, i => if i = k then v else Memory.read m i

/-- A cell in front, unless it says what an unlisted index reads as. -/
def Memory.cell (i : Nat) (v : Byte) (m : Memory) : Memory := if v = bufUnlisted then m else (i, v) :: m

/-- `BufWrite(i, v)`, keeping the canonical form. -/
def Memory.write : Memory → Nat → Byte → Memory
  | [], i, v => Memory.cell i v []
  | (k, x) :: m, i, v =>
    if i < k then Memory.cell i v ((k, x) :: m)
    else if i = k then Memory.cell i v m
    else (k, x) :: Memory.write m i v

/-- Every index of the list is at least `lo`, they rise strictly, they are below 251, and no cell says what an
unlisted index reads as. -/
def Memory.wfFrom : Nat → Memory → Bool
  | _, [] => true
  | lo, (k, v) :: m =>
    decide (lo ≤ k) && decide (k < Config.bufDepth) && decide (v ≠ bufUnlisted) && Memory.wfFrom (k + 1) m

/-- The canonical form of `BUF`. -/
def Memory.wf (m : Memory) : Bool := Memory.wfFrom 0 m

/-- `BUF[0..n)`, the first `n` entries in order (00_scope.md R8). -/
def Memory.slice (m : Memory) (n : Nat) : List Byte := (List.range n).map (Memory.read m)

/-- A buffer whose entry `i` is `f i`, for `i` below `n`. -/
def Memory.fill (f : Nat → Byte) : Nat → Memory
  | 0 => []
  | n + 1 => Memory.write (Memory.fill f n) n (f n)

/-- A buffer of free bytes, those of draw number `draw` (log entry 5). -/
@[irreducible] def freeBuffer (draw : Nat) : Memory := Memory.fill (Config.freeBuf draw) Config.bufDepth

/-- The payload received so far in the current frame, `BUF[0..DEC_CNT)`. -/
def State.payload (s : State) : List Byte := Memory.slice s.buf s.decCnt.val

/-- `DEC_CNT + 1`, used only below 251. -/
def cntSucc (c : Fin 252) : Fin 252 := if h : c.val < 251 then ⟨c.val + 1, by omega⟩ else c

/-! ### The outputs of a step -/

/-- The events of a record, NONE left out. -/
def RxEvent.toList : RxEvent → List RxEvent
  | .none => []
  | .frame p => [.frame p]
  | .csumMismatch c r => [.csumMismatch c r]

/-- A step's record delivered to the host: it becomes `out` and joins the traces of the run (10_state.md R31,
70_reset_and_hazards.md R150). -/
def State.deliver (s : State) (o : Out) : State :=
  { s with
    out := o
    rxEvents := s.rxEvents ++ o.rx.toList
    txBytes := s.txBytes ++ o.tx
    faultLog := s.faultLog ++ o.fault.toList }

/-- A step that emits nothing. -/
def emitNothing (s : State) : State := s.deliver Out.silent

/-- `emit_rx(ev)` (00_scope.md R9). -/
def emitRx (ev : RxEvent) (s : State) : State := s.deliver { rx := ev, tx := [], fault := none }

/-- `emit_tx(bytes)` (00_scope.md R9). -/
def emitTx (bytes : List Byte) (s : State) : State := s.deliver { rx := .none, tx := bytes, fault := none }

/-- `raise Fault(code)`, the one way a fault is taken (60_exceptions.md R132): its `ERR` bit is set, the record is
`{ rx = NONE, tx = [], fault = code }`, every other register keeps its value, and the fault log grows. There is no
return from it and no vector (R135). -/
def raiseFault (code : FaultCode) (s : State) : State :=
  { s with err := setErr s.err code }.deliver { rx := .none, tx := [], fault := some code }

/-! ### Rows -/

/-- A row's meaning where its condition holds, a refusal where it does not (log entry 10). -/
def onlyWhen (c : Prop) [Decidable c] (r : Result) : Result := if c then r else .refused .rowNotSelected

end Sys2Proof.Machine
end

