-- ==== Sys2Proof/Machine/Control.lean ====
section
/-! DEFINITION. The control operation `RESET` (43_control.md R125). -/

namespace Sys2Proof.Machine

/-- Every register at its value after reset (10_state.md R33). Those R33 leaves unspecified take free values, new at
each reset (log entry 5). The traces, the fault log (60_exceptions.md R132) and the queued operations stay. -/
def resetRegisters (s : State) : State :=
  { s with
    decState := .idle
    decLen := Config.freeDecLen s.draws
    decAcc := Config.freeDecAcc s.draws
    decCnt := Config.freeDecCnt s.draws
    buf := freeBuffer s.draws
    encState := .eIdle
    encRem := Config.freeEncRem s.draws
    encAcc := Config.freeEncAcc s.draws
    err := 0
    draws := s.draws + 1 }

/-- R125: legal in every state; `DATA` is ignored; no event, no byte, no fault. -/
def execReset (_data : Byte) (s : State) : Result := .next (emitNothing (resetRegisters s))

end Sys2Proof.Machine
end

