-- ==== Sys2Proof/Machine/Decoder.lean ====
section
/-! DEFINITION. The frame decoder, operation `RX` (41_decoder.md R91 to R100). Each meaning is its rule's condition
and pseudocode. -/

namespace Sys2Proof.Machine

/-! ### Idle -/

/-- R91. -/
def execDIdleSync1 (s : State) : Result :=
  onlyWhen (s.decState = .idle) (.next (emitNothing { s with decState := .header2 }))

/-- R92. -/
def execDIdleOther (b : Byte) (s : State) : Result :=
  onlyWhen (s.decState = .idle ∧ b ≠ Config.sync1) (.next (emitNothing s))

/-! ### Header2 -/

/-- R93. -/
def execDH2Sync2 (s : State) : Result :=
  onlyWhen (s.decState = .header2) (.next (emitNothing { s with decState := .headerOk }))

/-- R94. -/
def execDH2Other (b : Byte) (s : State) : Result :=
  onlyWhen (s.decState = .header2 ∧ b ≠ Config.sync2) (.next (emitNothing { s with decState := .idle }))

/-! ### HeaderOk -/

/-- The writes R95 and R96 share: `DEC_LEN`, the seeded accumulator (40_checksum.md R80), and "buffer cleared",
which writes no entry of `BUF` (10_state.md R25). -/
def acceptLength (b : Byte) (next : DecState) (s : State) : State :=
  { s with decLen := b, decAcc := csgSeed b, decCnt := 0, decState := next }

/-- R95. -/
def execDHokLenPayload (b : Byte) (s : State) : Result :=
  onlyWhen (s.decState = .headerOk ∧ 5 ≤ b.toNat) (.next (emitNothing (acceptLength b .receiving s)))

/-- R96; `LEN` 0..3 is a short length, taken like 4 (92_eei_decisions.md D6). -/
def execDHokLenEmpty (b : Byte) (s : State) : Result :=
  onlyWhen (s.decState = .headerOk ∧ b.toNat ≤ 4) (.next (emitNothing (acceptLength b .waitCSum s)))

/-! ### Receiving -/

/-- The writes R97 and R98 share: the byte at `BUF[DEC_CNT]`, the accumulator (40_checksum.md R81), the count. At
`DEC_CNT = 251` the index names no entry (20_memory.md R40): a fault no reachable state raises (log entry 7). -/
def receiveByte (b : Byte) (next : DecState) (s : State) : Result :=
  if s.decCnt.val < Config.bufDepth then
    .next (emitNothing { s with
      buf := Memory.write s.buf s.decCnt.val b
      decAcc := csgAcc s.decAcc b
      decCnt := cntSucc s.decCnt
      decState := next })
  else .fault (.bufIndex s.decCnt.val)

/-- R97. -/
def execDRecvMore (b : Byte) (s : State) : Result :=
  onlyWhen (s.decState = .receiving ∧ s.decCnt.val + 5 < s.decLen.toNat) (receiveByte b .receiving s)

/-- R98. -/
def execDRecvLast (b : Byte) (s : State) : Result :=
  onlyWhen (s.decState = .receiving ∧ s.decLen.toNat ≤ s.decCnt.val + 5) (receiveByte b .waitCSum s)

/-! ### WaitCSum -/

/-- R99: the payload is delivered, a copy of `BUF[0..DEC_CNT)` in order. -/
def execDWaitMatch (b : Byte) (s : State) : Result :=
  onlyWhen (s.decState = .waitCSum ∧ csgMatch s.decAcc b = true)
    (.next (emitRx (.frame s.payload) { s with decState := .idle }))

/-- R100: the frame is discarded with a diagnostic. -/
def execDWaitMismatch (b : Byte) (s : State) : Result :=
  onlyWhen (s.decState = .waitCSum ∧ csgMatch s.decAcc b = false)
    (.next (emitRx (.csumMismatch s.decAcc b) { s with decState := .idle }))

end Sys2Proof.Machine
end

