-- ==== Sys2Proof/Machine/Encoder.lean ====
section
/-! DEFINITION. The frame encoder, operations `ENC_START` and `ENC_DATA` (42_encoder.md R111 to R117). -/

namespace Sys2Proof.Machine

/-- `LEN = n + 4` as a byte (30_encoding.md R61); it does not wrap for `n <= 251`. -/
def lenByte (n : Nat) : Byte := BitVec.ofNat 8 (n + Config.lenOffset)

/-- The header and the length byte, `[0x55, 0xAA, n + 4]`. -/
def frameHead (n : Nat) : List Byte := [Config.sync1, Config.sync2, lenByte n]

/-! ### ENC_START -/

/-- R111. -/
def execEStart (n : Byte) (s : State) : Result :=
  onlyWhen (s.encState = .eIdle ∧ 1 ≤ n.toNat ∧ n.toNat ≤ Config.maxPayload)
    (.next (emitTx (frameHead n.toNat)
      { s with encAcc := csgSeed (lenByte n.toNat), encRem := n, encState := .ePayload }))

/-- R112: the whole frame `55 AA 04 04` in one step; the encoder stays in `EIdle`. -/
def execEStartEmpty (s : State) : Result :=
  onlyWhen (s.encState = .eIdle)
    (.next (emitTx (frameHead 0 ++ [csum (lenByte 0) []])
      { s with encAcc := csgSeed (lenByte 0), encRem := 0 }))

/-- R113: refused with `ENC_BUSY`, whatever the length; the open frame is unharmed. -/
def execEStartBusy (_n : Byte) (s : State) : Result :=
  onlyWhen (s.encState = .ePayload) (.next (raiseFault .encBusy s))

/-- R114: refused with `ENC_LEN_RANGE`. -/
def execEStartRange (n : Byte) (s : State) : Result :=
  onlyWhen (s.encState = .eIdle ∧ 252 ≤ n.toNat) (.next (raiseFault .encLenRange s))

/-! ### ENC_DATA -/

/-- R115. -/
def execEDataMore (b : Byte) (s : State) : Result :=
  onlyWhen (s.encState = .ePayload ∧ 2 ≤ s.encRem.toNat)
    (.next (emitTx [b] { s with encAcc := csgAcc s.encAcc b, encRem := s.encRem - 1 }))

/-- R116: the last payload byte, then the checksum. -/
def execEDataLast (b : Byte) (s : State) : Result :=
  onlyWhen (s.encState = .ePayload ∧ s.encRem = 1)
    (.next (emitTx [b, csgAcc s.encAcc b]
      { s with encAcc := csgAcc s.encAcc b, encRem := 0, encState := .eIdle }))

/-- R117: refused with `ENC_IDLE`. -/
def execEDataIdle (_b : Byte) (s : State) : Result :=
  onlyWhen (s.encState = .eIdle) (.next (raiseFault .encIdle s))

end Sys2Proof.Machine
end

