-- ==== Sys2Proof/Machine/Dispatch.lean ====
section
/-! DEFINITION. The meaning of each row of the opcode table, one arm per constructor of `Instr`. -/

namespace Sys2Proof.Machine

def exec (i : Instr) (s : State) : Host.Outcome State Fault Refusal :=
  match i with
  -- the decoder's rows (41_decoder.md)
  | .dIdleSync1 => Sys2Proof.Machine.execDIdleSync1 s
  | .dIdleOther b => Sys2Proof.Machine.execDIdleOther b s
  | .dH2Sync2 => Sys2Proof.Machine.execDH2Sync2 s
  | .dH2Other b => Sys2Proof.Machine.execDH2Other b s
  | .dHokLenPayload b => Sys2Proof.Machine.execDHokLenPayload b s
  | .dHokLenEmpty b => Sys2Proof.Machine.execDHokLenEmpty b s
  | .dRecvMore b => Sys2Proof.Machine.execDRecvMore b s
  | .dRecvLast b => Sys2Proof.Machine.execDRecvLast b s
  | .dWaitMatch b => Sys2Proof.Machine.execDWaitMatch b s
  | .dWaitMismatch b => Sys2Proof.Machine.execDWaitMismatch b s
  -- the encoder's rows (42_encoder.md)
  | .eStart n => Sys2Proof.Machine.execEStart n s
  | .eStartEmpty => Sys2Proof.Machine.execEStartEmpty s
  | .eStartBusy n => Sys2Proof.Machine.execEStartBusy n s
  | .eStartRange n => Sys2Proof.Machine.execEStartRange n s
  | .eDataMore b => Sys2Proof.Machine.execEDataMore b s
  | .eDataLast b => Sys2Proof.Machine.execEDataLast b s
  | .eDataIdle b => Sys2Proof.Machine.execEDataIdle b s
  -- the control row (43_control.md)
  | .reset data => Sys2Proof.Machine.execReset data s

end Sys2Proof.Machine
end

