-- ==== Sys2Proof/Machine/Apply.lean ====
section
/-! DEFINITION. What a step calls: applying one host operation word (00_scope.md R6), the step without an operation,
and placing a table word as the next operation. -/

namespace Sys2Proof.Machine

/-- One host operation, one atomic step (00_scope.md R6): the word selects a row in this state (30_encoding.md R69)
and the row runs. -/
def applyOp (w : OpWord) (s : State) : Result :=
  match selectRow s w with
  | .ok i => exec i s
  | .error why => .refused (.noRow why)

/-- Operation words applied one after another. -/
def applyOps : List OpWord → State → Result
  | [], s => .next s
  | w :: ws, s =>
    match applyOp w s with
    | .next t => applyOps ws t
    | .fault r => .fault r
    | .refused r => .refused r

/-- A step in which the host offers no operation: every register waits, nothing is emitted (41_decoder.md R104).
DESIGN CHOICE (log entry 2). -/
def idleStep (s : State) : State := { s with out := Out.silent }

/-- The state with the registers that key `k` and its row's condition speak of: the addressed unit in the state
`K[12:10]` names, and the registers of the condition as `tableRegs` has them (log entry 11). -/
def placeUnit (k : Key) (s : State) : State :=
  match keyOp k with
  | .rx =>
    match DecState.ofBits (keyState k) with
    | some .receiving =>
      { s with decState := .receiving, decLen := tableRegs.decLen, decCnt := tableRegs.decCnt }
    | some .waitCSum => { s with decState := .waitCSum, decAcc := tableRegs.decAcc }
    | some st => { s with decState := st }
    | none => s
  | .encStart =>
    match EncState.ofBits (keyState k) with
    | some st => { s with encState := st }
    | none => s
  | .encData =>
    match EncState.ofBits (keyState k) with
    | some .ePayload => { s with encState := .ePayload, encRem := tableRegs.encRem }
    | some st => { s with encState := st }
    | none => s
  | .reset => s

/-- The state in which the next step runs the instruction of a table word (log entry 11). -/
def placeTableWord (s : State) (nbits w : Nat) : State :=
  match tableKey nbits w with
  | some k => { placeUnit k s with pending := [keyWord k] }
  | none => s

end Sys2Proof.Machine
end

