-- ==== Sys2Proof/Machine/Step.lean ====
section
/-! DEFINITION. One step of the machine: it takes the host's next queued operation word and applies it (00_scope.md
R6). Also the placing of a table word, part of the row's fixed interface. -/

namespace Sys2Proof.Machine

/-- One step: the next queued operation, one at a time (R6); with none queued, nothing happens. -/
def step (s : State) : Host.Outcome State Fault Refusal :=
  match s.pending with
  | [] => .next (idleStep s)
  | w :: rest => applyOp w { s with pending := rest }

/-- `s` with the instruction of a table word as what the next step runs (log entry 11). -/
def State.withFetchWord (s : State) (nbits w : Nat) : State := placeTableWord s nbits w

end Sys2Proof.Machine
end

