-- ==== Sys2Proof/Machine/Reference.lean ====
section
/-! DEFINITION. The spec's own functions and records beside the operations: `encode` (42_encoder.md R110),
`decoder_step` (41_decoder.md R103), what the host observes (10_state.md R32), and a run with its observation
(70_reset_and_hazards.md R150). -/

namespace Sys2Proof.Machine

/-! ### `encode` (R110) -/

/-- `encode(p) = [0x55, 0xAA, n + 4] ++ p ++ [(n + 4 + sum(p)) mod 256]`, meant for payloads of at most 251 bytes. -/
def encodeFrame (p : List Byte) : List Byte := frameHead p.length ++ p ++ [csum (lenByte p.length) p]

/-! ### `decoder_step` (R103) -/

/-- The decoder's registers, `(DEC_STATE, DEC_LEN, DEC_ACC, DEC_CNT, BUF)`. -/
structure DecRegs where
  state : DecState
  len : Byte
  acc : Byte
  cnt : Fin 252
  buf : Memory
  deriving DecidableEq, Repr

/-- The decoder's part of a state. -/
def State.decRegs (s : State) : DecRegs :=
  { state := s.decState, len := s.decLen, acc := s.decAcc, cnt := s.decCnt, buf := s.buf }

/-- A state with other decoder registers. -/
def State.withDecRegs (s : State) (d : DecRegs) : State :=
  { s with decState := d.state, decLen := d.len, decAcc := d.acc, decCnt := d.cnt, buf := d.buf }

/-- The decoder as one total function (R103). Its `BufWrite` is meant for `DEC_CNT` at most 250. -/
def decoderStep (d : DecRegs) (b : Byte) : DecRegs × RxEvent :=
  match d.state with
  | .idle => ({ d with state := if b = 0x55 then .header2 else .idle }, .none)
  | .header2 => ({ d with state := if b = 0xAA then .headerOk else .idle }, .none)
  | .headerOk =>
    ({ d with len := b, acc := b, cnt := 0, state := if 0 + 4 ≥ b.toNat then .waitCSum else .receiving }, .none)
  | .receiving =>
    ({ d with
        buf := Memory.write d.buf d.cnt.val b
        acc := BitVec.ofNat 8 ((d.acc.toNat + b.toNat) % 256)
        cnt := cntSucc d.cnt
        state := if d.cnt.val + 1 + 4 ≥ d.len.toNat then .waitCSum else .receiving }, .none)
  | .waitCSum =>
    ({ d with state := .idle },
      if b = d.acc then .frame (Memory.slice d.buf d.cnt.val) else .csumMismatch d.acc b)

/-! ### What the host sees (R32) -/

/-- The observations of the transaction level: the `Out` record, `ERR`, and `ENC_STATE` as `enc_busy`. -/
structure HostView where
  out : Out
  err : BitVec 3
  encBusy : Bool
  deriving DecidableEq, Repr

/-- What the host observes of a state. -/
def State.hostView (s : State) : HostView :=
  { out := s.out, err := s.err, encBusy := decide (s.encState = .ePayload) }

/-! ### Runs (R150) -/

/-- The state after reset with a list of operations queued. -/
def loaded (ws : List OpWord) : State := { State.reset with pending := ws }

/-- A run: a finite list of operations, one per step, from the reset state. -/
def runOps (ws : List OpWord) : Result := Host.Core.run Sys2Proof.core ws.length (loaded ws)

/-- The observation of a run. -/
structure Observation where
  rx : List RxEvent
  tx : List Byte
  faults : List FaultCode
  decState : DecState
  encState : EncState
  deriving DecidableEq, Repr

/-- The observation that a run's final state holds. -/
def State.observation (s : State) : Observation :=
  { rx := s.rxEvents, tx := s.txBytes, faults := s.faultLog, decState := s.decState, encState := s.encState }

/-- The observation of a run that starts in `s` and ends in `t`: what the traces hold beyond what they held at `s`, and
the final states. What is in the traces from before the start is no part of the run (log entry 19). -/
def State.observationSince (s t : State) : Observation where
  rx := t.rxEvents.drop s.rxEvents.length
  tx := t.txBytes.drop s.txBytes.length
  faults := t.faultLog.drop s.faultLog.length
  decState := t.decState
  encState := t.encState

/-- The bytes that a list of operation words hands to the decoder, in order. -/
def rxBytesOf (ws : List OpWord) : List Byte := (ws.filter (fun w => wordOp w = .rx)).map wordData

/-- The encoder operations in a list of operation words, in order. -/
def encWordsOf (ws : List OpWord) : List OpWord := ws.filter (fun w => wordOp w = .encStart ∨ wordOp w = .encData)

end Sys2Proof.Machine
end

