-- ==== Sys2Proof/Machine/Asm.lean ====
section
/-! DEFINITION. The text syntax for operation sequences and its pseudo-operations (30_encoding.md R74, R75): an
assembler from characters to operation words. -/

namespace Sys2Proof.Machine.Asm

/-! ### Pseudo-operations (R75) -/

/-- `rx.bytes b0 ... bk`. -/
def rxBytes (bs : List Byte) : List OpWord := bs.map rxWord

/-- `rx.frame p0 ... p(n-1)`. -/
def rxFrame (p : List Byte) : List OpWord := rxBytes (encodeFrame p)

/-- `enc.frame p0 ... p(n-1)`. -/
def encFrame (p : List Byte) : List OpWord :=
  encStartWord (BitVec.ofNat 8 p.length) :: p.map encDataWord

/-! ### Numbers: hexadecimal with a `0x` prefix, or decimal (R74) -/

/-- The value of a digit in base 16. -/
def digit (c : Char) : Option Nat :=
  let n := c.toNat
  if 48 ≤ n ∧ n ≤ 57 then some (n - 48)
  else if 97 ≤ n ∧ n ≤ 102 then some (n - 87)
  else if 65 ≤ n ∧ n ≤ 70 then some (n - 55)
  else none

/-- Digits of a base, most significant first, after the value `acc`. -/
def digits (base : Nat) : Nat → List Char → Option Nat
  | acc, [] => some acc
  | acc, c :: cs =>
    match digit c with
    | some d => if d < base then digits base (acc * base + d) cs else none
    | none => none

/-- A number. -/
def number : List Char → Option Nat
  | [] => none
  | ['0', 'x'] => none
  | '0' :: 'x' :: ds => digits 16 0 ds
  | ds => digits 10 0 ds

/-- An operand: a number below 256. -/
def operand (t : List Char) : Option Byte :=
  match number t with
  | some n => if n < 256 then some (BitVec.ofNat 8 n) else none
  | none => none

/-- All operands of a list of tokens. -/
def operands : List (List Char) → Option (List Byte)
  | [] => some []
  | t :: ts =>
    match operand t, operands ts with
    | some b, some bs => some (b :: bs)
    | _, _ => none

/-! ### Lines -/

/-- `;` starts a comment (R74). -/
def stripComment (line : List Char) : List Char := line.takeWhile (fun c => c ≠ ';')

/-- The characters before and after each separator: `cur` is the token so far, reversed. Empty tokens are kept. -/
def splitOn (sep : Char → Bool) : List Char → List Char → List (List Char)
  | cur, [] => [cur.reverse]
  | cur, c :: cs => if sep c then cur.reverse :: splitOn sep [] cs else splitOn sep (c :: cur) cs

/-- The tokens of a line, separated by blanks. -/
def tokens (line : List Char) : List (List Char) :=
  (splitOn (fun c => c = ' ' || c = '\t' || c = '\r') [] (stripComment line)).filter (fun t => !t.isEmpty)

/-- The words of an operation with one operand. -/
def unary (f : Byte → OpWord) : List (List Char) → Option (List OpWord)
  | [t] => (operand t).map (fun b => [f b])
  | _ => none

/-- The words of a pseudo-operation over a payload of at most 251 bytes. -/
def framed (f : List Byte → List OpWord) (ts : List (List Char)) : Option (List OpWord) :=
  match operands ts with
  | some p => if p.length ≤ Config.maxPayload then some (f p) else none
  | none => none

/-- The operation words of a line: the mnemonics of R74, the pseudo-operations of R75; an empty line has none. -/
def line (cs : List Char) : Option (List OpWord) :=
  match tokens cs with
  | [] => some []
  | m :: ts =>
    if m = ['r', 'x'] then unary rxWord ts
    else if m = ['e', 'n', 'c', '.', 's', 't', 'a', 'r', 't'] then unary encStartWord ts
    else if m = ['e', 'n', 'c', '.', 'd', 'a', 't', 'a'] then unary encDataWord ts
    else if m = ['r', 'e', 's', 'e', 't'] then (if ts.isEmpty then some [resetWord] else none)
    else if m = ['r', 'x', '.', 'b', 'y', 't', 'e', 's'] then
      (if ts.isEmpty then none else (operands ts).map rxBytes)
    else if m = ['r', 'x', '.', 'f', 'r', 'a', 'm', 'e'] then framed rxFrame ts
    else if m = ['e', 'n', 'c', '.', 'f', 'r', 'a', 'm', 'e'] then framed encFrame ts
    else none

/-- The words of lines, in order; none where one line does not assemble. -/
def lines : List (List Char) → Option (List OpWord)
  | [] => some []
  | l :: ls =>
    match line l, lines ls with
    | some ws, some rest => some (ws ++ rest)
    | _, _ => none

/-- A program text: one operation a line (R74). -/
def program (text : List Char) : Option (List OpWord) := lines (splitOn (fun c => c = '\n') [] text)

end Sys2Proof.Machine.Asm
end

