-- ==== Sys2Proof/Machine/Ports.lean ====
section
/-! DEFINITION. The register-level realisation (10_state.md R34), which the spec calls informative: a layer over the
transaction-level machine, one record of port inputs per clock cycle. It runs the same operations, `applyOps`. -/

namespace Sys2Proof.Machine

/-- The input ports in one cycle (R34; `clk` is the passing from one cycle to the next). -/
structure PortIn where
  rst : Bool
  rxValid : Bool
  rxData : Byte
  bufRaddr : Byte
  encValid : Bool
  encOp : BitVec 1
  encData : Byte
  txReady : Bool
  deriving DecidableEq, Repr

/-- The output ports in one cycle (R34). -/
structure PortOut where
  evValid : Bool
  evCode : BitVec 2
  evLen : Byte
  evComputed : Byte
  evReceived : Byte
  bufRdata : Byte
  encReady : Bool
  txValid : Bool
  txData : Byte
  encBusy : Bool
  err : BitVec 3
  deriving DecidableEq, Repr

/-- The registers of the realisation. `core` is the block's state; `ev` is the event that the `ev_*` ports show in
this cycle; `txq` holds the bytes of the last accepted encoder operation that the sink has not taken; `taken` and
`pulsed` are the model's traces of the bytes taken and the events shown in earlier cycles; `cycle` numbers the
cycles, for the free values only. -/
structure PortState where
  core : State
  ev : RxEvent
  txq : List Byte
  taken : List Byte
  pulsed : List RxEvent
  cycle : Nat
  deriving DecidableEq, Repr

/-- After power-on reset. -/
def PortState.reset : PortState :=
  { core := State.reset, ev := .none, txq := [], taken := [], pulsed := [], cycle := 0 }

/-- `enc_ready`: no byte is left from the previous encoder operation (R34), from the cycle after the last one is taken
on (log entry 18). -/
def PortState.encReady (p : PortState) : Bool := p.txq.isEmpty

/-! ### Outputs (R34)
A port whose value the spec leaves unspecified in a cycle shows a free value (log entry 13). -/

/-- `ev_code`: meaningful when `ev_valid` is 1. -/
def PortState.evCode (p : PortState) : BitVec 2 :=
  match p.ev with
  | .none => BitVec.ofNat 2 (Config.freeEvCode p.cycle).val
  | e => e.code

/-- `ev_len`: for `FRAME`, the payload length. -/
def PortState.evLen (p : PortState) : Byte :=
  match p.ev with
  | .frame payload => BitVec.ofNat 8 payload.length
  | _ => Config.freeEvLen p.cycle

/-- `ev_computed`: for `CSUM_MISMATCH`, the accumulator. -/
def PortState.evComputed (p : PortState) : Byte :=
  match p.ev with
  | .csumMismatch c _ => c
  | _ => Config.freeEvComputed p.cycle

/-- `ev_received`: for `CSUM_MISMATCH`, the checksum byte. -/
def PortState.evReceived (p : PortState) : Byte :=
  match p.ev with
  | .csumMismatch _ r => r
  | _ => Config.freeEvReceived p.cycle

/-- `buf_rdata`: `BUF[buf_raddr]`, unspecified at 251 and above, without side effect (R34, 20_memory.md R40). -/
def PortState.bufRdata (p : PortState) (addr : Byte) : Byte :=
  if addr.toNat < Config.bufDepth then Memory.read p.core.buf addr.toNat else Config.freeBufRdata p.cycle addr

/-- `tx_data`: the first byte the sink has not taken. -/
def PortState.txData (p : PortState) : Byte :=
  match p.txq with
  | b :: _ => b
  | [] => Config.freeTxData p.cycle

/-- All output ports in a cycle. Only `buf_rdata` is combinational in an input. -/
def PortState.outputs (p : PortState) (i : PortIn) : PortOut where
  evValid := decide (p.ev ≠ .none)
  evCode := p.evCode
  evLen := p.evLen
  evComputed := p.evComputed
  evReceived := p.evReceived
  bufRdata := p.bufRdata i.bufRaddr
  encReady := p.encReady
  txValid := !p.txq.isEmpty
  txData := p.txData
  encBusy := p.core.hostView.encBusy
  err := p.core.err

/-! ### The clock edge -/

/-- The operation `enc_op` and `enc_data` offer: 0 = `ENC_START`, 1 = `ENC_DATA` (R34). -/
def PortIn.encWord (i : PortIn) : OpWord := if i.encOp = 0 then encStartWord i.encData else encDataWord i.encData

/-- The received byte of the cycle, if one is present. -/
def PortIn.rxWords (i : PortIn) : List OpWord := if i.rxValid then [rxWord i.rxData] else []

/-- The encoder operation accepted in the cycle: `enc_valid` and `enc_ready` are both 1. -/
def PortState.encWords (p : PortState) (i : PortIn) : List OpWord :=
  if i.encValid && p.encReady then [i.encWord] else []

/-- The operations of a cycle. `rst` dominates every other input; a received byte and an encoder operation of one
cycle are independent, and the byte is applied first (60_exceptions.md R134). -/
def PortState.accepted (p : PortState) (i : PortIn) : List OpWord :=
  if i.rst then [resetWord] else i.rxWords ++ p.encWords i

/-- The byte the sink takes in the cycle: `tx_valid` and `tx_ready` are both 1, and `rst` is not (log entry 14). -/
def PortState.takes (p : PortState) (i : PortIn) : List Byte :=
  if !i.rst && i.txReady then p.txq.take 1 else []

/-- The registers after the edge, given the block's state after the cycle's operations: the event of the cycle is
shown in the next one, and the bytes the operations emitted wait for the sink. They are offered from the very next
cycle on, without a gap, until the last is taken: R149 gives no figure for this. DESIGN CHOICE (log entry 18). -/
def PortState.after (p : PortState) (i : PortIn) (c : State) : PortState where
  core := c
  ev := (c.rxEvents.drop p.core.rxEvents.length).headD .none
  txq := p.txq.drop (p.takes i).length ++ c.txBytes.drop p.core.txBytes.length
  taken := p.taken ++ p.takes i
  pulsed := p.pulsed ++ p.ev.toList
  cycle := p.cycle + 1

/-- One rising edge of `clk`. -/
def PortState.clock (p : PortState) (i : PortIn) : Host.Outcome PortState Fault Refusal :=
  match applyOps (p.accepted i) p.core with
  | .next c => .next (p.after i c)
  | .fault r => .fault r
  | .refused r => .refused r

/-! ### Runs at the register level (70_reset_and_hazards.md R150) -/

/-- Clock edges one after another, one record of inputs for each cycle. -/
def PortState.cycles : List PortIn → PortState → Host.Outcome PortState Fault Refusal
  | [], p => .next p
  | i :: ins, p =>
    match p.clock i with
    | .next q => PortState.cycles ins q
    | .fault r => .fault r
    | .refused r => .refused r

/-- The operations accepted over cycles, in order. -/
def PortState.acceptedIn : List PortIn → PortState → List OpWord
  | [], _ => []
  | i :: ins, p =>
    match p.clock i with
    | .next q => p.accepted i ++ PortState.acceptedIn ins q
    | .fault _ => p.accepted i
    | .refused _ => p.accepted i

/-- A run at the register level after power-on reset. -/
def runPorts (ins : List PortIn) : Host.Outcome PortState Fault Refusal := PortState.cycles ins PortState.reset

/-- The inputs of a run from `rst`: `rst` is asserted in its first cycle, the other inputs of that cycle being `i`. -/
def fromRst (i : PortIn) (ins : List PortIn) : List PortIn := { i with rst := true } :: ins

/-- A run at the register level from `rst` (R150), in whatever state the registers are when `rst` is asserted. Its
observation is `p.observationSince`. -/
def PortState.runFromRst (p : PortState) (i : PortIn) (ins : List PortIn) : Host.Outcome PortState Fault Refusal :=
  PortState.cycles (fromRst i ins) p

/-- The observation (R150) of a register-level run that starts in `p` and ends in `q`: the events, the concatenated
`tx` lists and the faults of the operations accepted, and the final states. -/
def PortState.observationSince (p q : PortState) : Observation := p.core.observationSince q.core

end Sys2Proof.Machine
end

