-- ==== Sys2Proof/Safety.lean ====
section
/-! DEFINITION. What counts as a sound state and a safe run, in the terms the claims use: the invariants of
10_state.md R26 and R29, the fault-free run of 60_exceptions.md R132, and which states no output tells apart
(10_state.md R26 item 4, R29, R33). -/

namespace Sys2Proof.Machine

/-! ### Invariants -/

/-- The decoder's invariants (10_state.md R26, items 1 to 3), with the canonical form of `BUF`. -/
structure DecInv (s : State) : Prop where
  /-- The buffer is in its canonical form. -/
  bufWf : Memory.wf s.buf = true
  /-- Item 1. -/
  receiving : s.decState = .receiving → s.decCnt.val + 4 < s.decLen.toNat
  /-- Item 2: `DEC_CNT = max(0, DEC_LEN - 4)`; subtraction of naturals stops at 0. -/
  waiting : s.decState = .waitCSum → s.decCnt.val = s.decLen.toNat - 4
  /-- Item 3. -/
  sum : s.decState = .receiving ∨ s.decState = .waitCSum → s.decAcc = csum s.decLen s.payload

/-- An open frame of the encoder (10_state.md R29): `d` are the payload bytes accepted since `ENC_START(n)`. -/
structure OpenFrame (s : State) (n : Nat) (d : List Byte) : Prop where
  length_le : n ≤ 251
  rem_pos : 1 ≤ s.encRem.toNat
  rem_eq : s.encRem.toNat + d.length = n
  acc_eq : s.encAcc = csum (lenByte n) d

/-- The encoder's invariants (R29). The history R29 speaks of is read from the bytes sent: while a frame is open, the
transmit stream ends in its header, its length and the payload bytes accepted so far. -/
def EncInv (s : State) : Prop :=
  s.encState = .ePayload → ∃ sent n d, s.txBytes = sent ++ frameHead n ++ d ∧ OpenFrame s n d

/-- Every set bit of `ERR` has its fault in the fault log (R30, 60_exceptions.md R132). -/
def ErrLogged (s : State) : Prop := ∀ c : FaultCode, errSet s.err c = true → c ∈ s.faultLog

/-- The transmit stream is whole frames in the order they were started, then the frame that is still open if there
is one (20_memory.md R48). It holds as long as no `RESET` cuts a frame short (43_control.md R125). -/
def TxFramed (s : State) : Prop :=
  ∃ (ps : List (List Byte)) (tail : List Byte),
    s.txBytes = (ps.map encodeFrame).flatten ++ tail ∧
    (∀ p ∈ ps, p.length ≤ 251) ∧
    (s.encState = .eIdle → tail = []) ∧
    (s.encState = .ePayload → ∃ n d, tail = frameHead n ++ d ∧ OpenFrame s n d)

/-- At most one of the three parts of a record says something (10_state.md R31). -/
def Out.exclusive (o : Out) : Prop :=
  (o.rx = .none ∨ o.tx = []) ∧ (o.rx = .none ∨ o.fault = none) ∧ (o.tx = [] ∨ o.fault = none)

/-! ### Safe runs -/

/-- No fault in the log, the premise R132 asks of claims about runs. -/
def State.faultFree (s : State) : Prop := s.faultLog = []

/-- A claim about runs (70_reset_and_hazards.md R150) in the form 60_exceptions.md R132 asks for: it takes "no fault
in the log" as a premise, so a run that faults proves nothing. -/
def ClaimOfRuns (C : List OpWord → State → Prop) : Prop :=
  ∀ (ws : List OpWord) (t : State), runOps ws = .next t → t.faultFree → C ws t

/-- The host kept its encoder duties (70_reset_and_hazards.md R143): each `ENC_START` in `EIdle` with a length of at
most 251, each `ENC_DATA` in `EPayload`. -/
def EncDutiesKept (ws : List OpWord) : Prop :=
  ∀ (before rest : List OpWord) (w : OpWord) (u : State), ws = before ++ w :: rest → runOps before = .next u →
    (wordOp w = .encStart → u.encState = .eIdle ∧ (wordData w).toNat ≤ 251) ∧
    (wordOp w = .encData → u.encState = .ePayload)

/-! ### States that no output tells apart -/

/-- The decoder registers that later output depends on (R26 item 4: in `Idle`, `Header2` and `HeaderOk` none but
`DEC_STATE`; while a frame is received, of `BUF` only `BUF[0..DEC_CNT)`). -/
structure SameDecoder (s t : State) : Prop where
  state : s.decState = t.decState
  frame : s.decState = .receiving ∨ s.decState = .waitCSum →
    s.decLen = t.decLen ∧ s.decAcc = t.decAcc ∧ s.decCnt = t.decCnt ∧
      ∀ i, i < s.decCnt.val → Memory.read s.buf i = Memory.read t.buf i

/-- The encoder registers that later output depends on (R29: in `EIdle` none but `ENC_STATE` and `ERR`). -/
structure SameEncoder (s t : State) : Prop where
  state : s.encState = t.encState
  err : s.err = t.err
  frame : s.encState = .ePayload → s.encRem = t.encRem ∧ s.encAcc = t.encAcc

/-- Two states that differ at most in the registers no rule reads before writing them, and in the draw number. -/
structure SameVisible (s t : State) : Prop where
  dec : SameDecoder s t
  enc : SameEncoder s t
  out : s.out = t.out
  rxEvents : s.rxEvents = t.rxEvents
  txBytes : s.txBytes = t.txBytes
  faultLog : s.faultLog = t.faultLog
  pending : s.pending = t.pending

end Sys2Proof.Machine
end

