-- ==== Sys2Proof/Certificates/Slice0/Obligations.lean ====
section
/-! DEFINITION. The statements for the provers. Each docstring names the rule of spec/ it formalises, or says that the
clause is the model's choice and names the log entry. 60_exceptions.md R132 has every claim take "no fault in the log" as
a premise, so that a run that faults proves nothing. Every statement about several operations, about the streams or about
which state reaches an output takes it (`State.faultFree`, `ClaimOfRuns`). The statements of one row's own rule, of what
a fault, `RESET`, one cycle or the selection of a row does, and of the invariants, cannot: they are the semantics that
R132 and its neighbours give with a fault in the log as well (log entry 15). -/

open Sys2Proof Sys2Proof.Machine

/-! ### Encodings -/

/-- Keys written out bit by bit from the table (30_encoding.md R70, R71) decode to the rows they stand for, and an `RX`
key with a `DEC_STATE` value that R72 reserves is rejected by name. The last clause, an encoder key whose `K[12:11]` is
not zero, is no rule of R72: the model rejects it because no row of R71 has it (log entry 9, DEDUCED). -/
def Obligations.TableKeysDecode : Prop :=
  ∀ r : CondRegs,
    decode r 0b0000001010101 = .ok .dIdleSync1 ∧
    decode r 0b0000010101010 = .ok (.dIdleOther 0xAA) ∧
    decode r 0b0010010101010 = .ok .dH2Sync2 ∧
    decode r 0b0010001010101 = .ok (.dH2Other 0x55) ∧
    decode r 0b0100000000101 = .ok (.dHokLenPayload 5) ∧
    decode r 0b0100000000100 = .ok (.dHokLenEmpty 4) ∧
    decode r 0b0000111111011 = .ok (.eStart 251) ∧
    decode r 0b0000100000000 = .ok .eStartEmpty ∧
    decode r 0b0010111111100 = .ok (.eStartBusy 252) ∧
    decode r 0b0000111111100 = .ok (.eStartRange 252) ∧
    decode r 0b0001000000001 = .ok (.eDataIdle 1) ∧
    decode r 0b1111100000000 = .ok (.reset 0) ∧
    decode r 0b1010001010101 = .error .reservedDecState ∧
    decode r 0b0100100000001 = .error .reservedEncState

/-- R67 and R68: the state encodings, and the three values of `DEC_STATE` that name no state. -/
def Obligations.StateEncodings : Prop :=
  DecState.idle.bits = 0b000 ∧ DecState.header2.bits = 0b001 ∧ DecState.headerOk.bits = 0b010 ∧
  DecState.receiving.bits = 0b011 ∧ DecState.waitCSum.bits = 0b100 ∧
  (∀ v : BitVec 3, DecState.ofBits v = none ↔ v = 0b101 ∨ v = 0b110 ∨ v = 0b111) ∧
  (∀ v st, DecState.ofBits v = some st ↔ st.bits = v) ∧
  EncState.eIdle.bit = 0 ∧ EncState.ePayload.bit = 1

/-- R66: every 10-bit word is one of the four operations with its operand in bits 7..0, an unsigned byte; the operand
of `RESET` is ignored. -/
def Obligations.OperationWordFields : Prop :=
  (∀ d : Byte, rxWord d = 0b00#2 ++ d ∧ encStartWord d = 0b01#2 ++ d ∧ encDataWord d = 0b10#2 ++ d ∧
    opWord .reset d = 0b11#2 ++ d) ∧
  (∀ op d, wordOp (opWord op d) = op ∧ wordData (opWord op d) = d) ∧
  (∀ w : OpWord, opWord (wordOp w) (wordData w) = w) ∧
  (∀ d d' s, applyOp (opWord .reset d) s = applyOp (opWord .reset d') s)

/-- R69: the decode key is the unit's state, `OP` and `DATA`; and for every key whose `K[12:10]` holds a reachable
state (with `ENC_REM >= 1` in `EPayload`, as R71 has it) exactly one row of the table selects. -/
def Obligations.ExactlyOneRowSelects : Prop :=
  (∀ s b, formKey s (rxWord b) = s.decState.bits ++ 0b00#2 ++ b ∧
    formKey s (encStartWord b) = 0#2 ++ s.encState.bit ++ 0b01#2 ++ b ∧
    formKey s (encDataWord b) = 0#2 ++ s.encState.bit ++ 0b10#2 ++ b) ∧
  ∀ (r : CondRegs) (k : Key),
    (keyOp k = .rx → ∃ st : DecState, keyState k = st.bits) →
    (keyOp k = .encStart ∨ keyOp k = .encData → ∃ st : EncState, keyState k = st.bits) →
    (keyOp k = .encData → keyState k = EncState.ePayload.bits → 1 ≤ r.encRem.toNat) →
    ∃ row, opcodeTable.filter (fun row => row.selects r k) = [row]

/-- The decoder of keys is the opcode table (R69 to R72), for every key and every value of the registers: it gives the
instruction of the one row that selects, and rejects exactly where no row does. -/
def Obligations.DecodeIsTheTable : Prop :=
  ∀ (r : CondRegs) (k : Key),
    (opcodeTable.filter (fun row => row.selects r k)).map (fun row => row.build (keyData k)) =
      (match decode r k with
      | .ok i => [i]
      | .error _ => [])

/-- Decoding what was encoded gives the instruction back, for every row and every operand its encoding admits (R69 to
R71), where the registers meet the row's condition. -/
def Obligations.DecodeOfEncode : Prop :=
  ∀ (r : CondRegs) (i : Instr), i.wellFormed = true → i.cond r = true → decode r (encode i) = .ok i

/-- The row's interface: where a table word decodes to an instruction, placing it makes the next step run exactly
that instruction. The placing is the model's choice (log entry 11). -/
def Obligations.PlacedWordRuns : Prop :=
  ∀ (s : State) (nbits w : Nat) (i : Instr), decodeTableWord nbits w = some i →
    step (s.withFetchWord nbits w) = exec i { s.withFetchWord nbits w with pending := [] }

/-! ### Steps -/

/-- A step runs the decoded instruction (00_scope.md R6, 30_encoding.md R69): with operation `w` at the head of the
queue and `i` the row its key selects in this state, the step is `exec i` on the state without `w`. The queue is the
model's choice (log entry 1, DESIGN CHOICE). The last clause is the model's too: where the key selects no row, the step
is refused by that name; the one such key a state forms is `ENC_DATA` in `EPayload` with `ENC_REM = 0`, which no run
reaches (log entry 8, DEDUCED). -/
def Obligations.StepRunsTheSelectedRow : Prop :=
  ∀ (s : State) (w : OpWord) (rest : List OpWord), s.pending = w :: rest →
    (∀ i, decode s.condRegs (formKey s w) = .ok i → step s = exec i { s with pending := rest }) ∧
    (∀ why, decode s.condRegs (formKey s w) = .error why → step s = .refused (.noRow why))

/-- With no operation queued nothing happens, and the record of the step is silent. The model's choice (log entry 2),
after 41_decoder.md R104. -/
def Obligations.IdleStepWaits : Prop :=
  ∀ s : State, s.pending = [] → step s = .next { s with out := { rx := .none, tx := [], fault := none } }

/-- A row's meaning answers a next state only where the row is selected, and a selected row is turned away only at
`BufWrite` past the end of `BUF` (log entries 7 and 10; R69). -/
def Obligations.RowRunsWhereSelected : Prop :=
  (∀ (i : Instr) (s t : State), exec i s = .next t → selectRow s (encodeWord i) = .ok i) ∧
  (∀ (s : State) (w : OpWord) (i : Instr), selectRow s w = .ok i →
    (∃ t, exec i s = .next t) ∨
    (∃ b, i = .dRecvLast b ∧ s.decCnt.val = 251 ∧ exec i s = .fault (.bufIndex 251)))

/-- No operation is ever refused and none stops the block (41_decoder.md R102, 60_exceptions.md R132, R136): in every
state that meets the invariants, whatever the host has queued, the step answers a next state. -/
def Obligations.NoStepStops : Prop :=
  ∀ s : State, DecInv s → EncInv s → ∃ t, step s = .next t

/-! ### Decoder rows -/

/-- R91 and R92: a byte in `Idle`. -/
def Obligations.IdleRows : Prop :=
  ∀ s : State, s.decState = .idle →
    exec .dIdleSync1 s = .next { s with decState := .header2, out := { rx := .none, tx := [], fault := none } } ∧
    ∀ b : Byte, b ≠ 0x55 →
      exec (.dIdleOther b) s = .next { s with out := { rx := .none, tx := [], fault := none } }

/-- R93 and R94: a byte in `Header2`; a second 0x55 breaks the header like any other byte. -/
def Obligations.HeaderTwoRows : Prop :=
  ∀ s : State, s.decState = .header2 →
    exec .dH2Sync2 s = .next { s with decState := .headerOk, out := { rx := .none, tx := [], fault := none } } ∧
    ∀ b : Byte, b ≠ 0xAA →
      exec (.dH2Other b) s = .next { s with decState := .idle, out := { rx := .none, tx := [], fault := none } }

/-- R95 and R96: the length byte seeds the accumulator and clears the count, and writes no entry of `BUF`. -/
def Obligations.LengthRows : Prop :=
  ∀ (s : State) (b : Byte), s.decState = .headerOk →
    (5 ≤ b.toNat → exec (.dHokLenPayload b) s = .next { s with
      decLen := b, decAcc := b, decCnt := 0, decState := .receiving
      out := { rx := .none, tx := [], fault := none } }) ∧
    (b.toNat ≤ 4 → exec (.dHokLenEmpty b) s = .next { s with
      decLen := b, decAcc := b, decCnt := 0, decState := .waitCSum
      out := { rx := .none, tx := [], fault := none } })

/-- R97 and R98: a payload byte is stored at `BUF[DEC_CNT]`, summed and counted. The count and the sum are stated over
the naturals. The last row is met with `DEC_CNT + 5 = DEC_LEN` where the invariants hold. Above index 250 see `BufWritePastTheEndFaults`. -/
def Obligations.PayloadRows : Prop :=
  ∀ (s : State) (b : Byte), s.decState = .receiving →
    (s.decCnt.val + 1 + 4 < s.decLen.toNat → ∃ c : Fin 252, c.val = s.decCnt.val + 1 ∧ c.val ≤ 250 ∧
      exec (.dRecvMore b) s = .next { s with
        buf := Memory.write s.buf s.decCnt.val b
        decAcc := BitVec.ofNat 8 ((s.decAcc.toNat + b.toNat) % 256)
        decCnt := c
        out := { rx := .none, tx := [], fault := none } }) ∧
    (s.decLen.toNat ≤ s.decCnt.val + 1 + 4 → s.decCnt.val ≤ 250 → (DecInv s → s.decCnt.val + 5 = s.decLen.toNat) ∧
      ∃ c : Fin 252, c.val = s.decCnt.val + 1 ∧
      exec (.dRecvLast b) s = .next { s with
        buf := Memory.write s.buf s.decCnt.val b
        decAcc := BitVec.ofNat 8 ((s.decAcc.toNat + b.toNat) % 256)
        decCnt := c
        decState := .waitCSum
        out := { rx := .none, tx := [], fault := none } })

/-- What the model chose for the one index that names no entry of `BUF` (log entry 7, from 20_memory.md R40): a fault,
in a state that 10_state.md R26 rules out. -/
def Obligations.BufWritePastTheEndFaults : Prop :=
  (∀ (s : State) (b : Byte), s.decState = .receiving → s.decCnt.val = 251 →
    exec (.dRecvLast b) s = .fault (.bufIndex 251)) ∧
  (∀ s : State, DecInv s → s.decState = .receiving → s.decCnt.val ≤ 250)

/-- R99 and R100: the checksum byte delivers the payload or the diagnostic, and the decoder is back in `Idle`. -/
def Obligations.ChecksumRows : Prop :=
  ∀ (s : State) (b : Byte), s.decState = .waitCSum →
    (b = s.decAcc → exec (.dWaitMatch b) s = .next { s with
      decState := .idle
      out := { rx := .frame ((List.range s.decCnt.val).map (fun i => Memory.read s.buf i)), tx := [], fault := none }
      rxEvents := s.rxEvents ++ [.frame ((List.range s.decCnt.val).map (fun i => Memory.read s.buf i))] }) ∧
    (b ≠ s.decAcc → exec (.dWaitMismatch b) s = .next { s with
      decState := .idle
      out := { rx := .csumMismatch s.decAcc b, tx := [], fault := none }
      rxEvents := s.rxEvents ++ [.csumMismatch s.decAcc b] })

/-- R103: applying an `RX` word is `decoder_step`, in every state in which its `BufWrite` names an entry of `BUF`. -/
def Obligations.RxIsDecoderStep : Prop :=
  ∀ (s : State) (b : Byte), (s.decState = .receiving → s.decCnt.val ≤ 250) →
    applyOp (rxWord b) s = .next { s.withDecRegs (decoderStep s.decRegs b).1 with
      out := { rx := (decoderStep s.decRegs b).2, tx := [], fault := none }
      rxEvents := s.rxEvents ++ (decoderStep s.decRegs b).2.toList }

/-- R102: the decoder is total and deterministic. For each state with the invariants of R26 and each byte, exactly one
row applies; the step neither faults nor is refused; an event comes exactly on the bytes received in `WaitCSum`; the
index of a `BufWrite` is in 0..250, and 250 is needed. -/
def Obligations.DecoderIsTotal : Prop :=
  (∀ (s : State) (b : Byte) (rest : List OpWord), DecInv s → s.pending = rxWord b :: rest →
    (∃ t, step s = .next t ∧ t.pending = rest ∧ t.out.tx = [] ∧ t.out.fault = none ∧
      (t.out.rx ≠ .none ↔ s.decState = .waitCSum)) ∧
    (∃ i, (encodeWord i = rxWord b ∧ ∃ t, exec i s = .next t) ∧
      ∀ j, encodeWord j = rxWord b → (∃ t, exec j s = .next t) → j = i) ∧
    (s.decState = .receiving → s.decCnt.val ≤ 250)) ∧
  (∃ s : State, DecInv s ∧ s.decState = .receiving ∧ s.decCnt.val = 250)

/-- R101: the decoder is positional. Which row a byte takes depends only on the decoder's registers; a byte received in
`HeaderOk`, `Receiving` or `WaitCSum` never starts a frame; and the decoder gets back to `Idle` only through R94, R99
or R100. -/
def Obligations.DecoderIsPositional : Prop :=
  (∀ (s t : State) (b : Byte), s.decRegs = t.decRegs → selectRow s (rxWord b) = selectRow t (rxWord b)) ∧
  (∀ (i : Instr) (s t : State), i.op = .rx → exec i s = .next t →
    (t.decState = .header2 → s.decState = .idle ∧ i = .dIdleSync1) ∧
    (t.decState = .headerOk → s.decState = .header2 ∧ i = .dH2Sync2) ∧
    (s.decState ≠ .idle → t.decState = .idle →
      ∃ b, i = .dH2Other b ∨ i = .dWaitMatch b ∨ i = .dWaitMismatch b))

/-- R104: without an `RX` or `RESET` operation the decoder's registers stay as they are, for any number of steps. With
R132's premise of the last state. -/
def Obligations.DecoderHasNoTimeout : Prop :=
  ∀ (k : Nat) (s t : State), (∀ w ∈ s.pending, wordOp w ≠ .rx ∧ wordOp w ≠ .reset) →
    Host.Core.run Sys2Proof.core k s = .next t → t.faultFree → t.decRegs = s.decRegs

/-- R141: from `Idle`, bytes among which 0x55 is nowhere followed at once by 0xAA bring no event and no length byte, and
raise no fault. With R132's premise of the first state. -/
def Obligations.NoHeaderNoFrame : Prop :=
  ∀ (s : State) (bs : List Byte) (rest : List OpWord), s.faultFree → s.decState = .idle →
    (∀ pre post : List Byte, bs ≠ pre ++ 0x55 :: 0xAA :: post) →
    s.pending = bs.map rxWord ++ rest →
    ∃ t, Host.Core.run Sys2Proof.core bs.length s = .next t ∧ t.rxEvents = s.rxEvents ∧ t.pending = rest ∧
      t.faultLog = s.faultLog ∧ (t.decState = .idle ∨ t.decState = .header2)

/-! ### Checksum -/

/-- R80, R81 and R83: the micro-operations, as numbers. -/
def Obligations.ChecksumMicroOps : Prop :=
  (∀ v : Byte, csgSeed v = v) ∧
  (∀ acc b : Byte, (csgAcc acc b).toNat = (acc.toNat + b.toNat) % 256) ∧
  (∀ acc r : Byte, csgMatch acc r = true ↔ acc = r) ∧
  (∀ (acc : Byte) (k : Nat), k < 8 → csgMatch acc (acc ^^^ BitVec.twoPow 8 k) = false)

/-- R82: seeding and accumulating in order gives `(LEN + sum(p)) mod 256`, which does not depend on the order of the
bytes, nor on whether the wrap is applied at each step or once at the end. -/
def Obligations.ChecksumClosedForm : Prop :=
  (∀ (len : Byte) (p : List Byte),
    p.foldl csgAcc (csgSeed len) = csum len p ∧
    (csum len p).toNat = (len.toNat + (p.map BitVec.toNat).sum) % 256) ∧
  (∀ (len : Byte) (p q : List Byte), p.Perm q → csum len p = csum len q)

/-- R84: the check fails if exactly one payload byte, or the checksum byte itself, is changed; a reordering, or changes
that sum to 0 modulo 256, are not detected. -/
def Obligations.ChecksumDetects : Prop :=
  (∀ (len : Byte) (p : List Byte) (i : Nat) (v : Byte), (h : i < p.length) → p[i] ≠ v →
    csgMatch (csum len (p.set i v)) (csum len p) = false) ∧
  (∀ (len : Byte) (p : List Byte) (r : Byte), r ≠ csum len p → csgMatch (csum len p) r = false) ∧
  (∀ (len : Byte) (p q : List Byte), p.Perm q → csgMatch (csum len q) (csum len p) = true) ∧
  (∀ (len : Byte) (p q : List Byte), byteSum p % 256 = byteSum q % 256 →
    csgMatch (csum len q) (csum len p) = true)

/-! ### Encoder rows -/

/-- R111 and R112: `ENC_START` in `EIdle`: the row its word selects, and what the row does. -/
def Obligations.EncStartRows : Prop :=
  ∀ s : State, s.encState = .eIdle →
    (∀ n : Byte, 1 ≤ n.toNat → n.toNat ≤ 251 → selectRow s (encStartWord n) = .ok (.eStart n) ∧
      exec (.eStart n) s = .next { s with
      encAcc := BitVec.ofNat 8 (n.toNat + 4)
      encRem := n
      encState := .ePayload
      out := { rx := .none, tx := [0x55, 0xAA, BitVec.ofNat 8 (n.toNat + 4)], fault := none }
      txBytes := s.txBytes ++ [0x55, 0xAA, BitVec.ofNat 8 (n.toNat + 4)] }) ∧
    selectRow s (encStartWord 0) = .ok .eStartEmpty ∧
    exec .eStartEmpty s = .next { s with
      encAcc := 4
      encRem := 0
      out := { rx := .none, tx := [0x55, 0xAA, 0x04, 0x04], fault := none }
      txBytes := s.txBytes ++ [0x55, 0xAA, 0x04, 0x04] }

/-- R115 and R116: `ENC_DATA` in `EPayload`: the row its word selects, and what the row does; after the last payload byte comes the checksum. -/
def Obligations.EncDataRows : Prop :=
  ∀ (s : State) (b : Byte), s.encState = .ePayload →
    (2 ≤ s.encRem.toNat → selectRow s (encDataWord b) = .ok (.eDataMore b) ∧
      exec (.eDataMore b) s = .next { s with
      encAcc := BitVec.ofNat 8 ((s.encAcc.toNat + b.toNat) % 256)
      encRem := BitVec.ofNat 8 (s.encRem.toNat - 1)
      out := { rx := .none, tx := [b], fault := none }
      txBytes := s.txBytes ++ [b] }) ∧
    (s.encRem.toNat = 1 → selectRow s (encDataWord b) = .ok (.eDataLast b) ∧
      exec (.eDataLast b) s = .next { s with
      encAcc := BitVec.ofNat 8 ((s.encAcc.toNat + b.toNat) % 256)
      encRem := 0
      encState := .eIdle
      out := { rx := .none, tx := [b, BitVec.ofNat 8 ((s.encAcc.toNat + b.toNat) % 256)], fault := none }
      txBytes := s.txBytes ++ [b, BitVec.ofNat 8 ((s.encAcc.toNat + b.toNat) % 256)] })

/-- R113, R114 and R117: the rows that the refused operations select; they set their `ERR` bit, emit nothing and change no other register. The
fault log is R132's. -/
def Obligations.EncFaultRows : Prop :=
  ∀ (s : State) (n : Byte),
    (s.encState = .ePayload → selectRow s (encStartWord n) = .ok (.eStartBusy n) ∧
      exec (.eStartBusy n) s = .next { s with
      err := s.err ||| 0b001
      out := { rx := .none, tx := [], fault := some .encBusy }
      faultLog := s.faultLog ++ [.encBusy] }) ∧
    (s.encState = .eIdle → 252 ≤ n.toNat → selectRow s (encStartWord n) = .ok (.eStartRange n) ∧
      exec (.eStartRange n) s = .next { s with
      err := s.err ||| 0b010
      out := { rx := .none, tx := [], fault := some .encLenRange }
      faultLog := s.faultLog ++ [.encLenRange] }) ∧
    (s.encState = .eIdle → selectRow s (encDataWord n) = .ok (.eDataIdle n) ∧
      exec (.eDataIdle n) s = .next { s with
      err := s.err ||| 0b100
      out := { rx := .none, tx := [], fault := some .encIdle }
      faultLog := s.faultLog ++ [.encIdle] })

/-- R144: an open frame ends only with its last byte or with `RESET`, which abandons the decoder's frame too; with fewer
than `n` bytes supplied the encoder stays in `EPayload` and the next `ENC_START` faults; one byte too many faults. The
clauses over several operations take R132's premise of the state before the fault they state. -/
def Obligations.EncoderSequencing : Prop :=
  (∀ (i : Instr) (s t : State), exec i s = .next t → s.encState = .ePayload → t.encState = .eIdle →
    (i.op = .reset ∧ t.decState = .idle) ∨ (s.encRem = 1 ∧ ∃ b, i = .eDataLast b)) ∧
  (∀ (s a : State) (n : Byte) (d : List Byte), s.encState = .eIdle → 1 ≤ n.toNat → n.toNat ≤ 251 →
    applyOps (encStartWord n :: d.map encDataWord) s = .next a → a.faultFree →
    (d.length < n.toNat → a.encState = .ePayload ∧
      ∀ m, ∃ t, applyOp (encStartWord m) a = .next t ∧ t.out.fault = some .encBusy) ∧
    (d.length = n.toNat → a.encState = .eIdle ∧
      ∀ b, ∃ t, applyOp (encDataWord b) a = .next t ∧ t.out.fault = some .encIdle))

/-- R110 and R63: the shape of an encoded frame, field by field; a length above 251 is refused. -/
def Obligations.EncodedFrameShape : Prop :=
  (∀ p : List Byte, p.length ≤ 251 →
    ∃ len c : Byte, encodeFrame p = 0x55 :: 0xAA :: len :: (p ++ [c]) ∧
      len.toNat = p.length + 4 ∧ (encodeFrame p).length = p.length + 4 ∧
      c.toNat = (p.length + 4 + (p.map BitVec.toNat).sum) % 256) ∧
  (∀ (s : State) (n : Byte), s.encState = .eIdle → 251 < n.toNat →
    ∃ t, applyOp (encStartWord n) s = .next t ∧ t.out.tx = [] ∧ t.out.fault = some .encLenRange)

/-! ### Faults and the error register -/

/-- 60_exceptions.md R132: a step that raises a fault sets its `ERR` bit, records it, and does nothing else, whatever
the row. -/
def Obligations.FaultHasNoOtherEffect : Prop :=
  ∀ (i : Instr) (s t : State) (c : FaultCode), exec i s = .next t → t.out.fault = some c →
    t = { s with
      err := s.err ||| BitVec.twoPow 3 (match c with | .encBusy => 0 | .encLenRange => 1 | .encIdle => 2)
      out := { rx := .none, tx := [], fault := some c }
      faultLog := s.faultLog ++ [c] }

/-- R30: what sets each bit of `ERR`, that a fault leaves the other bits alone, that no decoder event sets any bit, and
that only reset clears them. -/
def Obligations.ErrBits : Prop :=
  State.reset.err = 0b000 ∧
  ∀ (i : Instr) (s t : State), exec i s = .next t →
    (i.op = .reset → t.err = 0b000) ∧
    (i.op = .rx → t.err = s.err) ∧
    (i.op ≠ .reset →
      t.err.getLsbD 0 = (s.err.getLsbD 0 || decide (i.op = .encStart ∧ s.encState = .ePayload)) ∧
      t.err.getLsbD 1 =
        (s.err.getLsbD 1 || decide (i.op = .encStart ∧ s.encState = .eIdle ∧ 251 < i.data.toNat)) ∧
      t.err.getLsbD 2 = (s.err.getLsbD 2 || decide (i.op = .encData ∧ s.encState = .eIdle)))

/-- A set bit of `ERR` always has its fault in the log that nothing clears (R30, R132): every step keeps this. -/
def Obligations.ErrStaysLogged : Prop :=
  ∀ s t : State, ErrLogged s → step s = .next t → ErrLogged t

/-- The traces record exactly the `Out` records of the steps, and no step clears them, not even `RESET`
(70_reset_and_hazards.md R150, 60_exceptions.md R132). -/
def Obligations.TracesRecordEveryStep : Prop :=
  ∀ s t : State, step s = .next t →
    t.rxEvents = s.rxEvents ++ (if t.out.rx = .none then [] else [t.out.rx]) ∧
    t.txBytes = s.txBytes ++ t.out.tx ∧
    t.faultLog = s.faultLog ++ t.out.fault.toList

/-- R31: what a step's record may hold and who writes which part of it, and the event codes. -/
def Obligations.OutRecordIsExclusive : Prop :=
  (∀ (i : Instr) (s t : State), exec i s = .next t →
    t.out.exclusive ∧
    (t.out.rx ≠ .none → i.op = .rx) ∧
    (t.out.tx ≠ [] ∨ t.out.fault ≠ none → i.op = .encStart ∨ i.op = .encData) ∧
    (∀ p, t.out.rx = .frame p → p.length ≤ 251) ∧
    (∀ c r, t.out.rx = .csumMismatch c r → c = s.decAcc ∧ r = i.data)) ∧
  (∀ p c r, RxEvent.none.code = 0 ∧ (RxEvent.frame p).code = 1 ∧ (RxEvent.csumMismatch c r).code = 2)

/-- After 60_exceptions.md R134: an operation raises at most one event or one fault; in `EPayload` every `ENC_START` reports `ENC_BUSY`, its length out of range or not; at the
register level `rst` dominates every other input; and a byte and an encoder operation of one cycle give what either
serial order gives (the `Out` record of the last step apart), with R132's premise of the state after the cycle. Three points are the model's choices, not R134's: that the
byte is applied first, so that `q.core` is the state of that order, record included (log entry 13, DESIGN CHOICE), the
port layer itself (log entry 13), and that `tx_ready` is among the inputs that `rst` makes irrelevant, the bytes not yet
taken staying offered (log entry 14, DESIGN CHOICE). -/
def Obligations.FaultAndPortPriority : Prop :=
  (∀ (s t : State) (w : OpWord), applyOp w s = .next t → t.out.rx = .none ∨ t.out.fault = none) ∧
  (∀ (s : State) (n : Byte), s.encState = .ePayload →
    ∃ t, applyOp (encStartWord n) s = .next t ∧ t.out.fault = some .encBusy ∧ t.err = s.err ||| 0b001) ∧
  (∀ (p : PortState) (i j : PortIn), i.rst = true → j.rst = true → p.clock i = p.clock j ∧
    ∃ c, applyOps [resetWord] p.core = .next c ∧ p.clock i = .next (p.after i c)) ∧
  (∀ (p q : PortState) (i : PortIn) (w : OpWord), i.rst = false → i.rxValid = true → i.encValid = true →
    p.encReady = true → w = (if i.encOp = 0 then encStartWord i.encData else encDataWord i.encData) →
    p.clock i = .next q →
    applyOps [rxWord i.rxData, w] p.core = .next q.core ∧
    (q.core.faultFree → ∃ b, applyOps [w, rxWord i.rxData] p.core = .next b ∧
      { q.core with out := Out.silent } = { b with out := Out.silent }))

/-! ### Reset -/

/-- R125: `RESET`, in every state and whatever its operand; the `rst` port drives it too. What R33 leaves unspecified
is left unsaid. In the reset state it changes nothing observable, and no other row clears a bit of `ERR`. -/
def Obligations.ResetRow : Prop :=
  (∀ (s : State) (d : Byte), selectRow s (opWord .reset d) = .ok (.reset d) ∧ ∃ t, exec (.reset d) s = .next t ∧
    t.decState = .idle ∧ t.encState = .eIdle ∧ t.err = 0b000 ∧
    t.out = { rx := .none, tx := [], fault := none } ∧
    t.rxEvents = s.rxEvents ∧ t.txBytes = s.txBytes ∧ t.faultLog = s.faultLog ∧ t.pending = s.pending ∧
    (∀ d', exec (.reset d') s = exec (.reset d) s) ∧
    (s.decState = .idle → s.encState = .eIdle → s.err = 0b000 → SameVisible t { s with out := Out.silent })) ∧
  (∀ (p : PortState) (i : PortIn), i.rst = true → p.accepted i = [opWord .reset 0]) ∧
  (∀ (i : Instr) (s t : State), i.op ≠ .reset → exec i s = .next t →
    ∀ k, s.err.getLsbD k = true → t.err.getLsbD k = true)

/-- R140: power-on reset, the `rst` port and the `RESET` operation leave the registers whose value reset gives at that
value, and agree on everything an output can depend on (`SameDecoder`, `SameEncoder`). -/
def Obligations.TwoSourcesOfReset : Prop :=
  (State.reset.decState = .idle ∧ State.reset.encState = .eIdle ∧ State.reset.err = 0) ∧
  (∀ (s t : State) (d : Byte), exec (.reset d) s = .next t →
    t.decState = .idle ∧ t.encState = .eIdle ∧ t.err = 0 ∧ SameDecoder t State.reset ∧ SameEncoder t State.reset) ∧
  (∀ (p q : PortState) (i : PortIn), i.rst = true → p.clock i = .next q →
    q.core.decState = .idle ∧ q.core.encState = .eIdle ∧ q.core.err = 0 ∧
      SameDecoder q.core State.reset ∧ SameEncoder q.core State.reset)

/-! ### Frames -/

/-- What each unit leaves alone (00_scope.md R11, 20_memory.md R49): `RX` rows leave the encoder's registers, `ERR`, the
transmit stream and the fault log; encoder rows leave the decoder's registers, every entry of `BUF` and the events;
no row but the step itself touches the queue, and only `RESET` draws. -/
def Obligations.RowFrames : Prop :=
  ∀ (i : Instr) (s t : State), exec i s = .next t →
    t.pending = s.pending ∧
    (i.op ≠ .reset → t.draws = s.draws) ∧
    (i.op = .rx → t.encState = s.encState ∧ t.encRem = s.encRem ∧ t.encAcc = s.encAcc ∧ t.err = s.err ∧
      t.txBytes = s.txBytes ∧ t.faultLog = s.faultLog) ∧
    (i.op = .encStart ∨ i.op = .encData →
      t.decState = s.decState ∧ t.decLen = s.decLen ∧ t.decAcc = s.decAcc ∧ t.decCnt = s.decCnt ∧
      t.rxEvents = s.rxEvents ∧ ∀ a, Memory.read t.buf a = Memory.read s.buf a)

/-- 20_memory.md R40: the payload rows store at index `DEC_CNT` and nowhere else, and every other row but `RESET`
leaves every entry of `BUF`. The invariant that `BUF` is canonical is a premise (`BufStaysCanonical`). -/
def Obligations.BufFrame : Prop :=
  ∀ (s t : State), Memory.wf s.buf = true →
    (∀ b : Byte, exec (.dRecvMore b) s = .next t ∨ exec (.dRecvLast b) s = .next t →
      Memory.read t.buf s.decCnt.val = b ∧ ∀ a, a ≠ s.decCnt.val → Memory.read t.buf a = Memory.read s.buf a) ∧
    (∀ i : Instr, exec i s = .next t → (∀ b, i ≠ .dRecvMore b ∧ i ≠ .dRecvLast b) → i.op ≠ .reset →
      ∀ a, Memory.read t.buf a = Memory.read s.buf a)

/-- 20_memory.md R49: an `RX` step and an encoder step commute: both orders run, and give the same registers and the
same per-unit output sequences (`out`, the record of whichever step came last, apart). With R132's premise of the state
after either step. -/
def Obligations.UnitsCommute : Prop :=
  ∀ (s a b : State) (d : Byte) (w : OpWord), wordOp w = .encStart ∨ wordOp w = .encData →
    applyOp (rxWord d) s = .next a → applyOp w s = .next b → a.faultFree → b.faultFree →
    ∃ ab ba, applyOp w a = .next ab ∧ applyOp (rxWord d) b = .next ba ∧
      { ab with out := Out.silent } = { ba with out := Out.silent } ∧ ab.out = b.out ∧ ba.out = a.out

/-- R49 and R121: neither unit reads the other. Steps of one unit from states that agree on that unit's registers give
the same record and the same registers of the unit. With R132's premise of the states after the steps. -/
def Obligations.UnitsDoNotReadEachOther : Prop :=
  (∀ (s t s' t' : State) (b : Byte), s.decRegs = t.decRegs →
    applyOp (rxWord b) s = .next s' → applyOp (rxWord b) t = .next t' → s'.faultFree → t'.faultFree →
    s'.out = t'.out ∧ s'.decRegs = t'.decRegs) ∧
  (∀ (s t s' t' : State) (w : OpWord), wordOp w = .encStart ∨ wordOp w = .encData →
    s.encState = t.encState → s.encRem = t.encRem → s.encAcc = t.encAcc → s.err = t.err →
    applyOp w s = .next s' → applyOp w t = .next t' → s'.faultFree → t'.faultFree →
    s'.out = t'.out ∧ s'.encState = t'.encState ∧ s'.encRem = t'.encRem ∧ s'.encAcc = t'.encAcc ∧ s'.err = t'.err)

/-! ### Invariants -/

/-- The decoder's invariants (10_state.md R26, items 1 to 3, with the canonical form of `BUF`) are kept by every step
from every state that has them. -/
def Obligations.DecoderInvariantsKept : Prop :=
  ∀ s t : State, DecInv s → step s = .next t → DecInv t

/-- The encoder's invariants (10_state.md R29) are kept by every step: while a frame is open, `ENC_REM` is what is
still to come of the length announced and `ENC_ACC` sums the length and the bytes accepted. -/
def Obligations.EncoderInvariantsKept : Prop :=
  ∀ s t : State, EncInv s → step s = .next t → EncInv t

/-- The state after reset has the invariants. -/
def Obligations.InvariantsAtReset : Prop :=
  DecInv State.reset ∧ EncInv State.reset ∧ ErrLogged State.reset ∧ TxFramed State.reset

/-- `BUF` stays in its canonical form, so that equal buffers are equal data: every step keeps it, `RESET` among them
(20_memory.md R40, R46). -/
def Obligations.BufStaysCanonical : Prop :=
  ∀ s t : State, Memory.wf s.buf = true → step s = .next t → Memory.wf t.buf = true

/-- 20_memory.md R48: frames never interleave. The transmit stream stays whole frames, in the order they were started,
then the frame still open: every step but a `RESET` keeps this. With R132's premise of the state after the step. -/
def Obligations.FramesNeverInterleave : Prop :=
  ∀ s t : State, TxFramed s → (∀ w rest, s.pending = w :: rest → wordOp w ≠ .reset) → step s = .next t →
    t.faultFree → TxFramed t

/-- 10_state.md R33 with R26 item 4 and R29: the unspecified values never reach an output. From two states that differ
at most in registers no rule reads before writing them, one step gives two such states, with the same record. With
R132's premise of the state after the step. -/
def Obligations.UnspecifiedValuesNeverSeen : Prop :=
  ∀ s t s' : State, Memory.wf s.buf = true → Memory.wf t.buf = true → SameVisible s t → step s = .next s' →
    s'.faultFree → ∃ t', step t = .next t' ∧ SameVisible s' t' ∧ s'.hostView = t'.hostView

/-! ### Streams and frames -/

/-- R118: the sequence `enc.start n`, `enc.data p[0]`, ..., `enc.data p[n-1]` from `EIdle` emits exactly `encode(p)`,
raises no fault and ends in `EIdle`. With R132's premise of the first state. -/
def Obligations.StreamEqualsEncode : Prop :=
  ∀ (s : State) (p : List Byte) (rest : List OpWord), s.faultFree → p.length ≤ 251 → s.encState = .eIdle →
    s.pending = encStartWord (BitVec.ofNat 8 p.length) :: (p.map encDataWord ++ rest) →
    ∃ t, Host.Core.run Sys2Proof.core (p.length + 1) s = .next t ∧
      t.txBytes = s.txBytes ++ encodeFrame p ∧ t.encState = .eIdle ∧ t.pending = rest ∧
      t.faultLog = s.faultLog ∧ t.err = s.err

/-- R119: a decoder in `Idle`, whatever its other registers hold, fed `encode(p)` delivers `p` at the last byte and
nothing before it, raises no fault and ends in `Idle`. With R132's premise of the first state. -/
def Obligations.RoundTrip : Prop :=
  ∀ (s : State) (p : List Byte) (rest : List OpWord), s.faultFree → p.length ≤ 251 → s.decState = .idle →
    Memory.wf s.buf = true → s.pending = (encodeFrame p).map rxWord ++ rest →
    ∃ u t, Host.Core.run Sys2Proof.core (p.length + 3) s = .next u ∧ u.rxEvents = s.rxEvents ∧
      step u = .next t ∧ t.out.rx = .frame p ∧ t.rxEvents = s.rxEvents ++ [.frame p] ∧
      t.faultLog = s.faultLog ∧ t.decState = .idle ∧ t.pending = rest

/-- R120: flipping any one bit of the checksum byte of a frame gets it rejected with a mismatch and no payload, and a
well-formed frame fed right after it is delivered. With R132's premise of the first state. -/
def Obligations.CorruptFrameRejectedThenResync : Prop :=
  ∀ (s : State) (p q : List Byte) (k : Nat) (rest : List OpWord), s.faultFree →
    p.length ≤ 251 → q.length ≤ 251 → k < 8 → s.decState = .idle → Memory.wf s.buf = true →
    s.pending = ((encodeFrame p).dropLast ++ [csum (lenByte p.length) p ^^^ BitVec.twoPow 8 k]).map rxWord ++
      ((encodeFrame q).map rxWord ++ rest) →
    ∃ u t, Host.Core.run Sys2Proof.core (p.length + 4) s = .next u ∧ u.decState = .idle ∧
      u.rxEvents = s.rxEvents ++
        [.csumMismatch (csum (lenByte p.length) p) (csum (lenByte p.length) p ^^^ BitVec.twoPow 8 k)] ∧
      Host.Core.run Sys2Proof.core (q.length + 4) u = .next t ∧ t.decState = .idle ∧
      t.rxEvents = u.rxEvents ++ [.frame q] ∧ t.faultLog = s.faultLog ∧ t.pending = rest

/-- R106: a payload is delivered only after its frame. If the last step of a run emits `FRAME(p)`, then the run splits
at a state in which the decoder was in `Idle`, and the bytes received since, with no `RESET` among the operations, are
`55 AA`, a length, `p` and the checksum of that length and `p`. With R132's premise. -/
def Obligations.DeliveredPayloadWasFramed : Prop :=
  ClaimOfRuns (fun ws t => ∀ p : List Byte, t.out.rx = .frame p →
    ∃ (before since : List OpWord) (u : State) (len : Byte),
      ws = before ++ since ∧
      runOps before = .next u ∧ u.decState = .idle ∧
      (∀ w ∈ since, wordOp w ≠ .reset) ∧
      rxBytesOf since = 0x55 :: 0xAA :: len :: (p ++ [csum len p]) ∧
      p.length = len.toNat - 4)

/-- 70_reset_and_hazards.md R145: after a `FRAME(p)` the entries `BUF[0..len(p))` hold the payload, and they still do
while no more than three further bytes are received, whatever encoder operations come between. With R132's premise of
the last state. -/
def Obligations.ReadWindow : Prop :=
  ∀ (s a t : State) (b : Byte) (ws : List OpWord), applyOp (rxWord b) s = .next a →
    ∀ p, a.out.rx = .frame p → (∀ w ∈ ws, wordOp w ≠ .reset) → (rxBytesOf ws).length ≤ 3 →
    applyOps ws a = .next t → t.faultFree → Memory.slice t.buf p.length = p

/-! ### The register level (10_state.md R34) -/

/-- R34, last two clauses, and R121: over any cycle the bytes taken by the sink and those still waiting are the
transmit stream of the operations accepted, and the events shown and the one about to be shown are the events of the
run. The port layer is the model's (log entry 13, DESIGN CHOICE), and in a cycle with `rst` the statement holds only by
the model's choice that the bytes not yet taken stay offered (log entry 14, DESIGN CHOICE, unsafe).
The other clauses are about the register-level runs of 70_reset_and_hazards.md R150: every run after power-on reset
goes on to its end, is the transaction-level run of the operations it accepted, and shows its streams; and a run from
`rst`, whatever the registers held, has the observation of the transaction-level run of its operations, the `RESET` of
its first cycle among them (what a run from `rst` observes: log entry 19, DESIGN CHOICE). With R132's premise of the last
state, but for the clause that a run goes on to its end, where R150 has it that the block never stops. -/
def Obligations.PortsCarryTheTraces : Prop :=
  (∀ (p q : PortState) (i : PortIn),
    p.taken ++ p.txq = p.core.txBytes → p.pulsed ++ p.ev.toList = p.core.rxEvents → p.clock i = .next q →
    q.core.faultFree → q.taken ++ q.txq = q.core.txBytes ∧ q.pulsed ++ q.ev.toList = q.core.rxEvents ∧
      ∃ more, q.taken = p.taken ++ more ∧ more.length ≤ 1) ∧
  (∀ ins : List PortIn, ∃ q, runPorts ins = .next q) ∧
  (∀ (ins : List PortIn) (q : PortState), runPorts ins = .next q → q.core.faultFree →
    runOps (PortState.acceptedIn ins PortState.reset) = .next q.core ∧
    q.taken ++ q.txq = q.core.txBytes ∧ q.pulsed ++ q.ev.toList = q.core.rxEvents) ∧
  (∀ (p q : PortState) (i : PortIn) (ins : List PortIn), p.runFromRst i ins = .next q → q.core.faultFree →
    ∃ u, runOps (PortState.acceptedIn (fromRst i ins) p) = .next u ∧ u.observation = p.observationSince q)

/-- R34, R133 and R149: `ev_valid` is 1 in the cycle after a byte received in `WaitCSum`, and only then; `ev_code` tells
a match from a mismatch, `ev_len` is the payload's length, and the two bytes of a mismatch are shown. -/
def Obligations.EventPulse : Prop :=
  ∀ (p q : PortState) (i j : PortIn), p.clock i = .next q →
    ((q.outputs j).evValid = true ↔ i.rst = false ∧ i.rxValid = true ∧ p.core.decState = .waitCSum) ∧
    ((q.outputs j).evValid = true → i.rxData = p.core.decAcc →
      (q.outputs j).evCode = 1 ∧ (q.outputs j).evLen.toNat = p.core.decCnt.val) ∧
    ((q.outputs j).evValid = true → i.rxData ≠ p.core.decAcc →
      (q.outputs j).evCode = 2 ∧ (q.outputs j).evComputed = p.core.decAcc ∧ (q.outputs j).evReceived = i.rxData)

/-- R34 and R40: the host's read of `BUF`, of `ERR` and of `enc_busy`; a read has no side effect. At an index of 251 or
more nothing is said of the value. -/
def Obligations.PortReads : Prop :=
  ∀ (p : PortState) (i : PortIn) (a : Byte),
    (i.bufRaddr.toNat ≤ 250 → (p.outputs i).bufRdata = Memory.read p.core.buf i.bufRaddr.toNat) ∧
    p.clock { i with bufRaddr := a } = p.clock i ∧
    (p.outputs i).err = p.core.err ∧
    ((p.outputs i).encBusy = true ↔ p.core.encState = .ePayload)

/-- R34, R121 and R149: `enc_ready` is low while a byte of the previous operation waits, no operation is accepted then,
`tx_data` is the oldest byte waiting, and it stays until the sink takes it. That `tx_valid` is 1 in every cycle in which
a byte waits is the model's choice (log entry 18, DESIGN CHOICE). -/
def Obligations.TransmitBackpressure : Prop :=
  ∀ (p q : PortState) (i : PortIn) (b : Byte) (rest : List Byte), p.txq = b :: rest → p.clock i = .next q →
    (p.outputs i).encReady = false ∧ (p.outputs i).txValid = true ∧ (p.outputs i).txData = b ∧
    (i.rst = false → q.core.encState = p.core.encState ∧ q.core.encRem = p.core.encRem ∧
      q.core.encAcc = p.core.encAcc ∧ q.core.err = p.core.err ∧ q.core.txBytes = p.core.txBytes) ∧
    (i.rst = false → i.txReady = false → q.txq = p.txq ∧ q.taken = p.taken) ∧
    (i.rst = false → i.txReady = true → q.txq = rest ∧ q.taken = p.taken ++ [b])

/-! ### Text (30_encoding.md R74, R75) -/

/-- R74's examples assemble to the words it gives, and R75's pseudo-operations expand as it says, for every payload. -/
def Obligations.AssemblyOfTheSpec : Prop :=
  Asm.line ['r', 'x', ' ', '0', 'x', '5', '5'] = some [0x055] ∧
  Asm.line ['e', 'n', 'c', '.', 's', 't', 'a', 'r', 't', ' ', '2'] = some [0x102] ∧
  Asm.line ['e', 'n', 'c', '.', 'd', 'a', 't', 'a', ' ', '0', 'x', '0', '1'] = some [0x201] ∧
  Asm.line ['r', 'e', 's', 'e', 't', ' ', ';', 'x'] = some [0x300] ∧
  (∀ p : List Byte, Asm.rxFrame p = (encodeFrame p).map rxWord ∧
    Asm.encFrame p = encStartWord (BitVec.ofNat 8 p.length) :: p.map encDataWord)

/-! ### Fault-free runs (60_exceptions.md R132)
Claims about runs from reset with the premise that R132 asks for. -/

/-- R132 with 70_reset_and_hazards.md R143: in a run with no fault in the log the host kept its encoder duties at every
operation, no earlier state of the run has a fault in its log, and `ERR` is 0; and a run in which the host kept its
encoder duties has no fault in the log. -/
def Obligations.FaultFreeRunsKeepTheDuties : Prop :=
  ClaimOfRuns (fun ws t =>
    EncDutiesKept ws ∧ t.err = 0b000 ∧
    ∀ (before rest : List OpWord) (u : State), ws = before ++ rest → runOps before = .next u → u.faultFree) ∧
  ∀ (ws : List OpWord) (t : State), runOps ws = .next t → EncDutiesKept ws → t.faultFree

/-- R132 with 42_encoder.md R118 and 20_memory.md R48: in a run with no fault in the log and no `RESET`, the encoder
operations are whole `enc.frame` sequences and then those of the frame still open, whatever `RX` operations come
between, and the transmit stream is the encodings of their payloads in that order and then the open frame so far. -/
def Obligations.FaultFreeRunsSendWhatWasAsked : Prop :=
  ClaimOfRuns (fun ws t =>
    (∀ w ∈ ws, wordOp w ≠ .reset) →
    ∃ (ps : List (List Byte)) (opened : List OpWord) (tail : List Byte),
      encWordsOf ws = (ps.map Asm.encFrame).flatten ++ opened ∧
      t.txBytes = (ps.map encodeFrame).flatten ++ tail ∧
      (∀ p ∈ ps, p.length ≤ 251) ∧
      (t.encState = .eIdle → opened = [] ∧ tail = []) ∧
      (t.encState = .ePayload → ∃ n d,
        opened = encStartWord (BitVec.ofNat 8 n) :: d.map encDataWord ∧
        tail = frameHead n ++ d ∧ OpenFrame t n d))
end

