-- ==== Sys2Proof/Laws/State.lean ====
section
/-! SUPPORT. One lemma per field for each named update of State, so that no proof unfolds a record update, and the
record equations of the steps that emit. -/

namespace Sys2Proof.Machine

/-! ### What a step delivers -/

@[simp] theorem RxEvent.toList_none : RxEvent.none.toList = [] := rfl
@[simp] theorem RxEvent.toList_frame (p : List Byte) : (RxEvent.frame p).toList = [.frame p] := rfl
@[simp] theorem RxEvent.toList_csumMismatch (c r : Byte) :
    (RxEvent.csumMismatch c r).toList = [.csumMismatch c r] := rfl
@[simp] theorem Out.silent_rx : Out.silent.rx = .none := rfl
@[simp] theorem Out.silent_tx : Out.silent.tx = [] := rfl
@[simp] theorem Out.silent_fault : Out.silent.fault = none := rfl

/-- A silent step changes `out` alone. -/
@[simp] theorem emitNothing_eq (s : State) : emitNothing s = { s with out := Out.silent } := by
  simp [emitNothing, State.deliver]

/-- A step with an event records it. -/
@[simp] theorem emitRx_eq (e : RxEvent) (s : State) :
    emitRx e s = { s with out := { rx := e, tx := [], fault := none }, rxEvents := s.rxEvents ++ e.toList } := by
  simp [emitRx, State.deliver]

/-- A step with bytes records them. -/
@[simp] theorem emitTx_eq (bs : List Byte) (s : State) :
    emitTx bs s = { s with out := { rx := .none, tx := bs, fault := none }, txBytes := s.txBytes ++ bs } := by
  simp [emitTx, State.deliver]

/-- Everything a fault changes (60_exceptions.md R132). -/
theorem raiseFault_eq (c : FaultCode) (s : State) :
    raiseFault c s = { s with
      err := setErr s.err c
      out := { rx := .none, tx := [], fault := some c }
      faultLog := s.faultLog ++ [c] } := by
  simp [raiseFault, State.deliver]

/-! ### `State.deliver` -/

@[simp] theorem State.deliver_decState (s : State) (o : Out) : (s.deliver o).decState = s.decState := rfl
@[simp] theorem State.deliver_decLen (s : State) (o : Out) : (s.deliver o).decLen = s.decLen := rfl
@[simp] theorem State.deliver_decAcc (s : State) (o : Out) : (s.deliver o).decAcc = s.decAcc := rfl
@[simp] theorem State.deliver_decCnt (s : State) (o : Out) : (s.deliver o).decCnt = s.decCnt := rfl
@[simp] theorem State.deliver_buf (s : State) (o : Out) : (s.deliver o).buf = s.buf := rfl
@[simp] theorem State.deliver_encState (s : State) (o : Out) : (s.deliver o).encState = s.encState := rfl
@[simp] theorem State.deliver_encRem (s : State) (o : Out) : (s.deliver o).encRem = s.encRem := rfl
@[simp] theorem State.deliver_encAcc (s : State) (o : Out) : (s.deliver o).encAcc = s.encAcc := rfl
@[simp] theorem State.deliver_err (s : State) (o : Out) : (s.deliver o).err = s.err := rfl
@[simp] theorem State.deliver_out (s : State) (o : Out) : (s.deliver o).out = o := rfl
@[simp] theorem State.deliver_rxEvents (s : State) (o : Out) : (s.deliver o).rxEvents = s.rxEvents ++ o.rx.toList := rfl
@[simp] theorem State.deliver_txBytes (s : State) (o : Out) : (s.deliver o).txBytes = s.txBytes ++ o.tx := rfl
@[simp] theorem State.deliver_faultLog (s : State) (o : Out) : (s.deliver o).faultLog = s.faultLog ++ o.fault.toList := rfl
@[simp] theorem State.deliver_pending (s : State) (o : Out) : (s.deliver o).pending = s.pending := rfl
@[simp] theorem State.deliver_draws (s : State) (o : Out) : (s.deliver o).draws = s.draws := rfl

/-! ### `idleStep` -/

@[simp] theorem idleStep_decState (s : State) : (idleStep s).decState = s.decState := rfl
@[simp] theorem idleStep_decLen (s : State) : (idleStep s).decLen = s.decLen := rfl
@[simp] theorem idleStep_decAcc (s : State) : (idleStep s).decAcc = s.decAcc := rfl
@[simp] theorem idleStep_decCnt (s : State) : (idleStep s).decCnt = s.decCnt := rfl
@[simp] theorem idleStep_buf (s : State) : (idleStep s).buf = s.buf := rfl
@[simp] theorem idleStep_encState (s : State) : (idleStep s).encState = s.encState := rfl
@[simp] theorem idleStep_encRem (s : State) : (idleStep s).encRem = s.encRem := rfl
@[simp] theorem idleStep_encAcc (s : State) : (idleStep s).encAcc = s.encAcc := rfl
@[simp] theorem idleStep_err (s : State) : (idleStep s).err = s.err := rfl
@[simp] theorem idleStep_out (s : State) : (idleStep s).out = Out.silent := rfl
@[simp] theorem idleStep_rxEvents (s : State) : (idleStep s).rxEvents = s.rxEvents := rfl
@[simp] theorem idleStep_txBytes (s : State) : (idleStep s).txBytes = s.txBytes := rfl
@[simp] theorem idleStep_faultLog (s : State) : (idleStep s).faultLog = s.faultLog := rfl
@[simp] theorem idleStep_pending (s : State) : (idleStep s).pending = s.pending := rfl
@[simp] theorem idleStep_draws (s : State) : (idleStep s).draws = s.draws := rfl

/-! ### `acceptLength` -/

@[simp] theorem acceptLength_decState (b : Byte) (d : DecState) (s : State) : (acceptLength b d s).decState = d := rfl
@[simp] theorem acceptLength_decLen (b : Byte) (d : DecState) (s : State) : (acceptLength b d s).decLen = b := rfl
@[simp] theorem acceptLength_decAcc (b : Byte) (d : DecState) (s : State) : (acceptLength b d s).decAcc = b := rfl
@[simp] theorem acceptLength_decCnt (b : Byte) (d : DecState) (s : State) : (acceptLength b d s).decCnt = 0 := rfl
@[simp] theorem acceptLength_buf (b : Byte) (d : DecState) (s : State) : (acceptLength b d s).buf = s.buf := rfl
@[simp] theorem acceptLength_encState (b : Byte) (d : DecState) (s : State) : (acceptLength b d s).encState = s.encState := rfl
@[simp] theorem acceptLength_encRem (b : Byte) (d : DecState) (s : State) : (acceptLength b d s).encRem = s.encRem := rfl
@[simp] theorem acceptLength_encAcc (b : Byte) (d : DecState) (s : State) : (acceptLength b d s).encAcc = s.encAcc := rfl
@[simp] theorem acceptLength_err (b : Byte) (d : DecState) (s : State) : (acceptLength b d s).err = s.err := rfl
@[simp] theorem acceptLength_out (b : Byte) (d : DecState) (s : State) : (acceptLength b d s).out = s.out := rfl
@[simp] theorem acceptLength_rxEvents (b : Byte) (d : DecState) (s : State) : (acceptLength b d s).rxEvents = s.rxEvents := rfl
@[simp] theorem acceptLength_txBytes (b : Byte) (d : DecState) (s : State) : (acceptLength b d s).txBytes = s.txBytes := rfl
@[simp] theorem acceptLength_faultLog (b : Byte) (d : DecState) (s : State) : (acceptLength b d s).faultLog = s.faultLog := rfl
@[simp] theorem acceptLength_pending (b : Byte) (d : DecState) (s : State) : (acceptLength b d s).pending = s.pending := rfl
@[simp] theorem acceptLength_draws (b : Byte) (d : DecState) (s : State) : (acceptLength b d s).draws = s.draws := rfl

/-! ### `resetRegisters` -/

@[simp] theorem resetRegisters_decState (s : State) : (resetRegisters s).decState = .idle := rfl
@[simp] theorem resetRegisters_decLen (s : State) : (resetRegisters s).decLen = Config.freeDecLen s.draws := rfl
@[simp] theorem resetRegisters_decAcc (s : State) : (resetRegisters s).decAcc = Config.freeDecAcc s.draws := rfl
@[simp] theorem resetRegisters_decCnt (s : State) : (resetRegisters s).decCnt = Config.freeDecCnt s.draws := rfl
@[simp] theorem resetRegisters_buf (s : State) : (resetRegisters s).buf = freeBuffer s.draws := rfl
@[simp] theorem resetRegisters_encState (s : State) : (resetRegisters s).encState = .eIdle := rfl
@[simp] theorem resetRegisters_encRem (s : State) : (resetRegisters s).encRem = Config.freeEncRem s.draws := rfl
@[simp] theorem resetRegisters_encAcc (s : State) : (resetRegisters s).encAcc = Config.freeEncAcc s.draws := rfl
@[simp] theorem resetRegisters_err (s : State) : (resetRegisters s).err = 0 := rfl
@[simp] theorem resetRegisters_out (s : State) : (resetRegisters s).out = s.out := rfl
@[simp] theorem resetRegisters_rxEvents (s : State) : (resetRegisters s).rxEvents = s.rxEvents := rfl
@[simp] theorem resetRegisters_txBytes (s : State) : (resetRegisters s).txBytes = s.txBytes := rfl
@[simp] theorem resetRegisters_faultLog (s : State) : (resetRegisters s).faultLog = s.faultLog := rfl
@[simp] theorem resetRegisters_pending (s : State) : (resetRegisters s).pending = s.pending := rfl
@[simp] theorem resetRegisters_draws (s : State) : (resetRegisters s).draws = s.draws + 1 := rfl

/-! ### `raiseFault` -/

@[simp] theorem raiseFault_decState (c : FaultCode) (s : State) : (raiseFault c s).decState = s.decState := rfl
@[simp] theorem raiseFault_decLen (c : FaultCode) (s : State) : (raiseFault c s).decLen = s.decLen := rfl
@[simp] theorem raiseFault_decAcc (c : FaultCode) (s : State) : (raiseFault c s).decAcc = s.decAcc := rfl
@[simp] theorem raiseFault_decCnt (c : FaultCode) (s : State) : (raiseFault c s).decCnt = s.decCnt := rfl
@[simp] theorem raiseFault_buf (c : FaultCode) (s : State) : (raiseFault c s).buf = s.buf := rfl
@[simp] theorem raiseFault_encState (c : FaultCode) (s : State) : (raiseFault c s).encState = s.encState := rfl
@[simp] theorem raiseFault_encRem (c : FaultCode) (s : State) : (raiseFault c s).encRem = s.encRem := rfl
@[simp] theorem raiseFault_encAcc (c : FaultCode) (s : State) : (raiseFault c s).encAcc = s.encAcc := rfl
@[simp] theorem raiseFault_err (c : FaultCode) (s : State) : (raiseFault c s).err = setErr s.err c := rfl
@[simp] theorem raiseFault_out (c : FaultCode) (s : State) : (raiseFault c s).out = { rx := .none, tx := [], fault := some c } := rfl
@[simp] theorem raiseFault_rxEvents (c : FaultCode) (s : State) : (raiseFault c s).rxEvents = s.rxEvents := by simp [raiseFault_eq]
@[simp] theorem raiseFault_txBytes (c : FaultCode) (s : State) : (raiseFault c s).txBytes = s.txBytes := by simp [raiseFault_eq]
@[simp] theorem raiseFault_faultLog (c : FaultCode) (s : State) : (raiseFault c s).faultLog = s.faultLog ++ [c] := rfl
@[simp] theorem raiseFault_pending (c : FaultCode) (s : State) : (raiseFault c s).pending = s.pending := rfl
@[simp] theorem raiseFault_draws (c : FaultCode) (s : State) : (raiseFault c s).draws = s.draws := rfl

/-! ### `State.withDecRegs` -/

@[simp] theorem State.withDecRegs_decState (s : State) (d : DecRegs) : (s.withDecRegs d).decState = d.state := rfl
@[simp] theorem State.withDecRegs_decLen (s : State) (d : DecRegs) : (s.withDecRegs d).decLen = d.len := rfl
@[simp] theorem State.withDecRegs_decAcc (s : State) (d : DecRegs) : (s.withDecRegs d).decAcc = d.acc := rfl
@[simp] theorem State.withDecRegs_decCnt (s : State) (d : DecRegs) : (s.withDecRegs d).decCnt = d.cnt := rfl
@[simp] theorem State.withDecRegs_buf (s : State) (d : DecRegs) : (s.withDecRegs d).buf = d.buf := rfl
@[simp] theorem State.withDecRegs_encState (s : State) (d : DecRegs) : (s.withDecRegs d).encState = s.encState := rfl
@[simp] theorem State.withDecRegs_encRem (s : State) (d : DecRegs) : (s.withDecRegs d).encRem = s.encRem := rfl
@[simp] theorem State.withDecRegs_encAcc (s : State) (d : DecRegs) : (s.withDecRegs d).encAcc = s.encAcc := rfl
@[simp] theorem State.withDecRegs_err (s : State) (d : DecRegs) : (s.withDecRegs d).err = s.err := rfl
@[simp] theorem State.withDecRegs_out (s : State) (d : DecRegs) : (s.withDecRegs d).out = s.out := rfl
@[simp] theorem State.withDecRegs_rxEvents (s : State) (d : DecRegs) : (s.withDecRegs d).rxEvents = s.rxEvents := rfl
@[simp] theorem State.withDecRegs_txBytes (s : State) (d : DecRegs) : (s.withDecRegs d).txBytes = s.txBytes := rfl
@[simp] theorem State.withDecRegs_faultLog (s : State) (d : DecRegs) : (s.withDecRegs d).faultLog = s.faultLog := rfl
@[simp] theorem State.withDecRegs_pending (s : State) (d : DecRegs) : (s.withDecRegs d).pending = s.pending := rfl
@[simp] theorem State.withDecRegs_draws (s : State) (d : DecRegs) : (s.withDecRegs d).draws = s.draws := rfl

end Sys2Proof.Machine
end

