-- ==== Sys2Proof/Laws/Memory.lean ====
section
/-! SUPPORT. The payload buffer: every operation keeps the canonical form, a read after a write gives the byte
written, and a write leaves every other entry alone. -/

namespace Sys2Proof.Machine

/-- Reading a cell put in front. -/
theorem Memory.read_cell (m : Memory) (i j : Nat) (v : Byte) (h : i = j → Memory.read m j = bufUnlisted) :
    Memory.read (Memory.cell i v m) j = if j = i then v else Memory.read m j := by
  unfold Memory.cell
  split
  · next hv =>
    split
    · next hj => rw [hv, h hj.symm]
    · rfl
  · rfl

/-- A weaker lower bound. -/
theorem Memory.wfFrom_mono {lo lo' : Nat} {m : Memory} (h : lo' ≤ lo) (hm : Memory.wfFrom lo m = true) :
    Memory.wfFrom lo' m = true := by
  cases m with
  | nil => rfl
  | cons c m =>
    obtain ⟨k, v⟩ := c
    simp only [Memory.wfFrom, Bool.and_eq_true, decide_eq_true_eq] at hm ⊢
    exact ⟨⟨⟨by omega, hm.1.1.2⟩, hm.1.2⟩, hm.2⟩

/-- An index below every listed one is not listed. -/
theorem Memory.read_below {lo i : Nat} {m : Memory} (hm : Memory.wfFrom lo m = true) (h : i < lo) :
    Memory.read m i = bufUnlisted := by
  induction m generalizing lo with
  | nil => rfl
  | cons c m ih =>
    obtain ⟨k, v⟩ := c
    simp only [Memory.wfFrom, Bool.and_eq_true, decide_eq_true_eq] at hm
    rw [Memory.read, if_neg (by omega)]
    exact ih hm.2 (by omega)

/-- An index that names no entry of `BUF` is not listed. -/
theorem Memory.read_outside {lo i : Nat} {m : Memory} (hm : Memory.wfFrom lo m = true) (h : Config.bufDepth ≤ i) :
    Memory.read m i = bufUnlisted := by
  induction m generalizing lo with
  | nil => rfl
  | cons c m ih =>
    obtain ⟨k, v⟩ := c
    simp only [Memory.wfFrom, Bool.and_eq_true, decide_eq_true_eq] at hm
    rw [Memory.read, if_neg (by omega)]
    exact ih hm.2

/-- Everything a write says about reads. -/
theorem Memory.read_write_from {lo i j : Nat} {m : Memory} {v : Byte} (hm : Memory.wfFrom lo m = true) :
    Memory.read (Memory.write m i v) j = if j = i then v else Memory.read m j := by
  induction m generalizing lo with
  | nil => exact Memory.read_cell [] i j v (fun _ => rfl)
  | cons c m ih =>
    obtain ⟨k, x⟩ := c
    have hw := hm
    simp only [Memory.wfFrom, Bool.and_eq_true, decide_eq_true_eq] at hw
    rw [Memory.write]
    split
    · next hlt =>
      refine Memory.read_cell _ i j v (fun hij => ?_)
      rw [Memory.read, if_neg (by omega)]
      exact Memory.read_below hw.2 (by omega)
    · split
      · next hik =>
        rw [Memory.read_cell m i j v (fun hij => Memory.read_below hw.2 (by omega)), Memory.read]
        split
        · rfl
        · rw [if_neg (by omega)]
      · next hik =>
        rw [Memory.read, Memory.read, ih hw.2]
        split
        · rw [if_neg (by omega)]
        · rfl

/-- A read after a write, at the index and elsewhere. -/
theorem Memory.read_write {i j : Nat} {m : Memory} {v : Byte} (hm : Memory.wf m = true) :
    Memory.read (Memory.write m i v) j = if j = i then v else Memory.read m j :=
  Memory.read_write_from hm

/-- A cell put in front keeps the form. -/
theorem Memory.wfFrom_cell {lo i : Nat} {m : Memory} {v : Byte} (hl : lo ≤ i) (hi : i < Config.bufDepth)
    (hm : Memory.wfFrom (i + 1) m = true) : Memory.wfFrom lo (Memory.cell i v m) = true := by
  unfold Memory.cell
  split
  · exact Memory.wfFrom_mono (by omega) hm
  · next hv =>
    simp only [Memory.wfFrom, Bool.and_eq_true, decide_eq_true_eq]
    exact ⟨⟨⟨hl, hi⟩, hv⟩, hm⟩

/-- A write keeps the form, from any lower bound. -/
theorem Memory.wfFrom_write {lo i : Nat} {m : Memory} {v : Byte} (hm : Memory.wfFrom lo m = true) (hl : lo ≤ i)
    (hi : i < Config.bufDepth) : Memory.wfFrom lo (Memory.write m i v) = true := by
  induction m generalizing lo with
  | nil => exact Memory.wfFrom_cell hl hi rfl
  | cons c m ih =>
    obtain ⟨k, x⟩ := c
    have hw := hm
    simp only [Memory.wfFrom, Bool.and_eq_true, decide_eq_true_eq] at hw
    rw [Memory.write]
    split
    · next hlt =>
      refine Memory.wfFrom_cell hl hi ?_
      simp only [Memory.wfFrom, Bool.and_eq_true, decide_eq_true_eq]
      exact ⟨⟨⟨by omega, hw.1.1.2⟩, hw.1.2⟩, hw.2⟩
    · split
      · next hik => exact Memory.wfFrom_cell hl hi (hik ▸ hw.2)
      · next hik =>
        simp only [Memory.wfFrom, Bool.and_eq_true, decide_eq_true_eq]
        exact ⟨hw.1, ih hw.2 (by omega)⟩

/-- A write at an index of `BUF` keeps the canonical form. -/
theorem Memory.wf_write {i : Nat} {m : Memory} {v : Byte} (hm : Memory.wf m = true) (hi : i < Config.bufDepth) :
    Memory.wf (Memory.write m i v) = true :=
  Memory.wfFrom_write hm (Nat.zero_le i) hi

/-- A filled buffer is in the canonical form. -/
theorem Memory.wf_fill (f : Nat → Byte) (n : Nat) (h : n ≤ Config.bufDepth) : Memory.wf (Memory.fill f n) = true := by
  induction n with
  | zero => rfl
  | succ n ih => exact Memory.wf_write (ih (by omega)) (by omega)

/-- Reading a filled buffer. -/
theorem Memory.read_fill (f : Nat → Byte) {n i : Nat} (h : n ≤ Config.bufDepth) (hi : i < n) :
    Memory.read (Memory.fill f n) i = f i := by
  induction n with
  | zero => omega
  | succ n ih =>
    rw [Memory.fill, Memory.read_write (Memory.wf_fill f n (by omega))]
    split
    · next hin => rw [hin]
    · exact ih (by omega) (by omega)

/-- A buffer of free bytes is in the canonical form. -/
theorem freeBuffer_wf (draw : Nat) : Memory.wf (freeBuffer draw) = true := by
  unfold freeBuffer
  exact Memory.wf_fill (Config.freeBuf draw) Config.bufDepth (Nat.le_refl _)

/-- Every entry of a buffer of free bytes is its own free byte. -/
theorem freeBuffer_read {draw i : Nat} (h : i < Config.bufDepth) :
    Memory.read (freeBuffer draw) i = Config.freeBuf draw i := by
  unfold freeBuffer
  exact Memory.read_fill (Config.freeBuf draw) (Nat.le_refl _) h

/-- Canonical buffers that read alike are the same data, from any lower bound. -/
theorem Memory.ext_from {lo : Nat} {m m' : Memory} (hm : Memory.wfFrom lo m = true) (hm' : Memory.wfFrom lo m' = true)
    (h : ∀ i, Memory.read m i = Memory.read m' i) : m = m' := by
  induction m generalizing lo m' with
  | nil =>
    cases m' with
    | nil => rfl
    | cons c m' =>
      obtain ⟨k, v⟩ := c
      have hk := h k
      simp only [Memory.wfFrom, Bool.and_eq_true, decide_eq_true_eq] at hm'
      rw [Memory.read, Memory.read, if_pos rfl] at hk
      exact absurd hk.symm hm'.1.2
  | cons c m ih =>
    obtain ⟨k, v⟩ := c
    have hw := hm
    simp only [Memory.wfFrom, Bool.and_eq_true, decide_eq_true_eq] at hw
    cases m' with
    | nil =>
      have hk := h k
      rw [Memory.read, Memory.read, if_pos rfl] at hk
      exact absurd hk hw.1.2
    | cons c' m' =>
      obtain ⟨k', v'⟩ := c'
      have hw' := hm'
      simp only [Memory.wfFrom, Bool.and_eq_true, decide_eq_true_eq] at hw'
      have hkk : k = k' := by
        rcases Nat.lt_trichotomy k k' with hlt | heq | hlt
        · have hk := h k
          rw [Memory.read, if_pos rfl, Memory.read, if_neg (by omega), Memory.read_below hw'.2 (by omega)] at hk
          exact absurd hk hw.1.2
        · exact heq
        · have hk := h k'
          rw [Memory.read, if_neg (by omega), Memory.read_below hw.2 (by omega), Memory.read, if_pos rfl] at hk
          exact absurd hk.symm hw'.1.2
      subst hkk
      have hv : v = v' := by
        have hk := h k
        rwa [Memory.read, if_pos rfl, Memory.read, if_pos rfl] at hk
      subst hv
      congr 1
      refine ih hw.2 hw'.2 (fun i => ?_)
      by_cases hik : i = k
      · rw [Memory.read_below hw.2 (by omega), Memory.read_below hw'.2 (by omega)]
      · have hi := h i
        rwa [Memory.read, if_neg hik, Memory.read, if_neg hik] at hi

/-- Canonical buffers that read alike are the same data. -/
theorem Memory.ext {m m' : Memory} (hm : Memory.wf m = true) (hm' : Memory.wf m' = true)
    (h : ∀ i, Memory.read m i = Memory.read m' i) : m = m' :=
  Memory.ext_from hm hm' h

/-! ### `BUF[0..n)` -/

@[simp] theorem Memory.slice_length (m : Memory) (n : Nat) : (Memory.slice m n).length = n := by
  simp [Memory.slice]

@[simp] theorem Memory.slice_zero (m : Memory) : Memory.slice m 0 = [] := rfl

/-- One entry more. -/
theorem Memory.slice_succ (m : Memory) (n : Nat) : Memory.slice m (n + 1) = Memory.slice m n ++ [Memory.read m n] := by
  simp [Memory.slice, List.range_succ]

/-- Entries that read alike give the same bytes. -/
theorem Memory.slice_congr {m m' : Memory} {n : Nat} (h : ∀ i, i < n → Memory.read m i = Memory.read m' i) :
    Memory.slice m n = Memory.slice m' n := by
  simp only [Memory.slice]
  exact List.map_congr_left (fun i hi => h i (List.mem_range.mp hi))

/-- Storing the next payload byte extends the payload by it. -/
theorem Memory.slice_write {m : Memory} {n : Nat} {b : Byte} (hm : Memory.wf m = true) :
    Memory.slice (Memory.write m n b) (n + 1) = Memory.slice m n ++ [b] := by
  rw [Memory.slice_succ, Memory.read_write hm, if_pos rfl]
  congr 1
  refine Memory.slice_congr (fun i hi => ?_)
  rw [Memory.read_write hm, if_neg (by omega)]

/-! ### `DEC_CNT` -/

theorem cntSucc_val {c : Fin 252} (h : c.val < 251) : (cntSucc c).val = c.val + 1 := by
  simp [cntSucc, h]

end Sys2Proof.Machine
end

