-- ==== Sys2Proof/Laws/Checksum.lean ====
section
/-! SUPPORT. The checksum generator: values as naturals, and one byte more. -/

namespace Sys2Proof.Machine

@[simp] theorem csgSeed_eq (v : Byte) : csgSeed v = v := rfl

@[simp] theorem csgAcc_toNat (acc b : Byte) : (csgAcc acc b).toNat = (acc.toNat + b.toNat) % 256 := by
  simp [csgAcc, BitVec.toNat_ofNat]

@[simp] theorem csum_toNat (len : Byte) (p : List Byte) : (csum len p).toNat = (len.toNat + byteSum p) % 256 := by
  simp [csum, BitVec.toNat_ofNat]

@[simp] theorem byteSum_nil : byteSum [] = 0 := rfl

@[simp] theorem byteSum_cons (b : Byte) (p : List Byte) : byteSum (b :: p) = b.toNat + byteSum p := rfl

@[simp] theorem byteSum_append (p q : List Byte) : byteSum (p ++ q) = byteSum p + byteSum q := by
  induction p with
  | nil => simp
  | cons b p ih => simp only [List.cons_append, byteSum_cons, ih]; omega

/-- No payload yet: the seed. -/
@[simp] theorem csum_nil (len : Byte) : csum len [] = len := by
  apply BitVec.eq_of_toNat_eq
  rw [csum_toNat, byteSum_nil]
  omega

/-- One payload byte more is one accumulation more. -/
theorem csum_snoc (len b : Byte) (p : List Byte) : csum len (p ++ [b]) = csgAcc (csum len p) b := by
  apply BitVec.eq_of_toNat_eq
  simp only [csum_toNat, csgAcc_toNat, byteSum_append, byteSum_cons, byteSum_nil]
  omega

theorem csgMatch_iff {acc r : Byte} : csgMatch acc r = true ↔ acc = r := by
  simp [csgMatch]

theorem csgMatch_false_iff {acc r : Byte} : csgMatch acc r = false ↔ acc ≠ r := by
  simp [csgMatch]

/-- `LEN = n + 4` does not wrap for the lengths a frame can have (30_encoding.md R61). -/
theorem lenByte_toNat {n : Nat} (h : n ≤ 251) : (lenByte n).toNat = n + 4 := by
  simp only [lenByte, Config.lenOffset, BitVec.toNat_ofNat]
  omega

end Sys2Proof.Machine
end

