-- ==== Sys2Proof/Laws/Key.lean ====
section
/-! SUPPORT. The fields of operation words and keys: what a word or a key is built from is what is read from it. -/

namespace Sys2Proof

@[simp] theorem OpCode.ofBits_bits (op : OpCode) : OpCode.ofBits op.bits = op := by
  cases op <;> rfl

theorem OpCode.bits_ofBits (v : BitVec 2) : (OpCode.ofBits v).bits = v := by
  revert v
  decide

@[simp] theorem DecState.ofBits_bits (st : DecState) : DecState.ofBits st.bits = some st := by
  cases st <;> rfl

@[simp] theorem EncState.ofBits_bits (st : EncState) : EncState.ofBits st.bits = some st := by
  cases st <;> rfl

/-- The encodings that name a decoder state. -/
theorem DecState.ofBits_eq_some {v : BitVec 3} {st : DecState} : DecState.ofBits v = some st ↔ v = st.bits := by
  cases st <;> revert v <;> decide

/-- The encodings that name an encoder state. -/
theorem EncState.ofBits_eq_some {v : BitVec 3} {st : EncState} : EncState.ofBits v = some st ↔ v = st.bits := by
  cases st <;> revert v <;> decide

/-- The bits of a key. -/
theorem mkKey_getLsbD (st : BitVec 3) (op : OpCode) (d : Byte) (i : Nat) :
    (mkKey st op d).getLsbD i =
      if i < 8 then d.getLsbD i else if i < 10 then op.bits.getLsbD (i - 8) else st.getLsbD (i - 10) := by
  have h : (mkKey st op d).getLsbD i = BitVec.getLsbD (w := 3 + 2 + 8) (st ++ op.bits ++ d) i := rfl
  rw [h, BitVec.getLsbD_append, BitVec.getLsbD_append]
  by_cases h8 : i < 8
  · simp [h8]
  · have h10 : (i - 8 < 2) ↔ i < 10 := by omega
    have hs : i - 8 - 2 = i - 10 := by omega
    simp only [h8, h10, hs, if_false]

/-- The bits of an operation word. -/
theorem opWord_getLsbD (op : OpCode) (d : Byte) (i : Nat) :
    (opWord op d).getLsbD i = if i < 8 then d.getLsbD i else op.bits.getLsbD (i - 8) := by
  have h : (opWord op d).getLsbD i = BitVec.getLsbD (w := 2 + 8) (op.bits ++ d) i := rfl
  rw [h, BitVec.getLsbD_append]

@[simp] theorem keyData_mkKey (st : BitVec 3) (op : OpCode) (d : Byte) : keyData (mkKey st op d) = d := by
  apply BitVec.eq_of_getLsbD_eq
  intro i hi
  simp [keyData, mkKey_getLsbD, hi]

@[simp] theorem keyOp_mkKey (st : BitVec 3) (op : OpCode) (d : Byte) : keyOp (mkKey st op d) = op := by
  have h : (mkKey st op d).extractLsb' 8 2 = op.bits := by
    apply BitVec.eq_of_getLsbD_eq
    intro i hi
    have h10 : 8 + i < 10 := by omega
    simp [mkKey_getLsbD, hi, h10]
  rw [keyOp, h, OpCode.ofBits_bits]

@[simp] theorem keyState_mkKey (st : BitVec 3) (op : OpCode) (d : Byte) : keyState (mkKey st op d) = st := by
  apply BitVec.eq_of_getLsbD_eq
  intro i hi
  have h8 : ¬ 10 + i < 8 := by omega
  simp [keyState, mkKey_getLsbD, hi, h8]

@[simp] theorem keyWord_mkKey (st : BitVec 3) (op : OpCode) (d : Byte) : keyWord (mkKey st op d) = opWord op d := by
  apply BitVec.eq_of_getLsbD_eq
  intro i hi
  rw [opWord_getLsbD]
  simp [keyWord, mkKey_getLsbD, hi]

/-- A key is what its three fields make. -/
theorem mkKey_fields (k : Key) : mkKey (keyState k) (keyOp k) (keyData k) = k := by
  apply BitVec.eq_of_getLsbD_eq
  intro i hi
  rw [mkKey_getLsbD, keyOp, OpCode.bits_ofBits, keyData, keyState, BitVec.getLsbD_extractLsb',
    BitVec.getLsbD_extractLsb', BitVec.getLsbD_extractLsb']
  by_cases h : i < 8
  · simp [h]
  · by_cases h2 : i < 10
    · have h3 : 8 + (i - 8) = i := by omega
      have h4 : i - 8 < 2 := by omega
      simp [h, h2, h3, h4]
    · have h3 : 10 + (i - 10) = i := by omega
      have h4 : i - 10 < 3 := by omega
      simp [h, h2, h3, h4]

@[simp] theorem wordData_opWord (op : OpCode) (d : Byte) : wordData (opWord op d) = d := by
  apply BitVec.eq_of_getLsbD_eq
  intro i hi
  simp [wordData, opWord_getLsbD, hi]

@[simp] theorem wordOp_opWord (op : OpCode) (d : Byte) : wordOp (opWord op d) = op := by
  have h : (opWord op d).extractLsb' 8 2 = op.bits := by
    apply BitVec.eq_of_getLsbD_eq
    intro i hi
    simp [opWord_getLsbD, hi]
  rw [wordOp, h, OpCode.ofBits_bits]

@[simp] theorem wordOp_rxWord (b : Byte) : wordOp (rxWord b) = .rx := wordOp_opWord _ _
@[simp] theorem wordData_rxWord (b : Byte) : wordData (rxWord b) = b := wordData_opWord _ _
@[simp] theorem wordOp_encStartWord (n : Byte) : wordOp (encStartWord n) = .encStart := wordOp_opWord _ _
@[simp] theorem wordData_encStartWord (n : Byte) : wordData (encStartWord n) = n := wordData_opWord _ _
@[simp] theorem wordOp_encDataWord (b : Byte) : wordOp (encDataWord b) = .encData := wordOp_opWord _ _
@[simp] theorem wordData_encDataWord (b : Byte) : wordData (encDataWord b) = b := wordData_opWord _ _
@[simp] theorem wordOp_resetWord : wordOp resetWord = .reset := wordOp_opWord _ _

end Sys2Proof
end

