-- ==== Sys2Proof/Laws/Exec.lean ====
section
/-! SUPPORT. What each meaning can do, said once: `exec… = next t` exactly where the row's condition holds, and then
`t` is this. Every later proof about a row cites its lemma here. -/

namespace Sys2Proof.Machine

theorem onlyWhen_next {c : Prop} [Decidable c] {r : Result} {t : State} :
    onlyWhen c r = .next t ↔ c ∧ r = .next t := by
  unfold onlyWhen
  split <;> simp_all

theorem onlyWhen_pos {c : Prop} [Decidable c] {r : Result} (h : c) : onlyWhen c r = r := if_pos h

theorem next_inj {s t : State} : (Host.Outcome.next s : Result) = .next t ↔ t = s := by
  constructor
  · intro h
    cases h
    rfl
  · rintro rfl
    rfl

/-! ### Decoder rows -/

theorem execDIdleSync1_next {s t : State} :
    execDIdleSync1 s = .next t ↔ s.decState = .idle ∧ t = { s with decState := .header2, out := Out.silent } := by
  simp only [execDIdleSync1, onlyWhen_next, next_inj, emitNothing_eq]

theorem execDIdleOther_next {b : Byte} {s t : State} :
    execDIdleOther b s = .next t ↔ (s.decState = .idle ∧ b ≠ Config.sync1) ∧ t = { s with out := Out.silent } := by
  simp only [execDIdleOther, onlyWhen_next, next_inj, emitNothing_eq]

theorem execDH2Sync2_next {s t : State} :
    execDH2Sync2 s = .next t ↔ s.decState = .header2 ∧ t = { s with decState := .headerOk, out := Out.silent } := by
  simp only [execDH2Sync2, onlyWhen_next, next_inj, emitNothing_eq]

theorem execDH2Other_next {b : Byte} {s t : State} :
    execDH2Other b s = .next t ↔
      (s.decState = .header2 ∧ b ≠ Config.sync2) ∧ t = { s with decState := .idle, out := Out.silent } := by
  simp only [execDH2Other, onlyWhen_next, next_inj, emitNothing_eq]

theorem execDHokLenPayload_next {b : Byte} {s t : State} :
    execDHokLenPayload b s = .next t ↔ (s.decState = .headerOk ∧ 5 ≤ b.toNat) ∧
      t = { s with decLen := b, decAcc := b, decCnt := 0, decState := .receiving, out := Out.silent } := by
  simp only [execDHokLenPayload, onlyWhen_next, next_inj, emitNothing_eq, acceptLength, csgSeed_eq]

theorem execDHokLenEmpty_next {b : Byte} {s t : State} :
    execDHokLenEmpty b s = .next t ↔ (s.decState = .headerOk ∧ b.toNat ≤ 4) ∧
      t = { s with decLen := b, decAcc := b, decCnt := 0, decState := .waitCSum, out := Out.silent } := by
  simp only [execDHokLenEmpty, onlyWhen_next, next_inj, emitNothing_eq, acceptLength, csgSeed_eq]

/-- Storing a payload byte: where it answers a next state, and which. -/
theorem receiveByte_next {b : Byte} {d : DecState} {s t : State} :
    receiveByte b d s = .next t ↔ s.decCnt.val < 251 ∧
      t = { s with
        buf := Memory.write s.buf s.decCnt.val b
        decAcc := csgAcc s.decAcc b
        decCnt := cntSucc s.decCnt
        decState := d
        out := Out.silent } := by
  simp only [receiveByte, Config.bufDepth, emitNothing_eq]
  split <;> simp_all [eq_comm]

/-- Storing a payload byte past the end of `BUF`. -/
theorem receiveByte_fault {b : Byte} {d : DecState} {s : State} (h : s.decCnt.val = 251) :
    receiveByte b d s = .fault (.bufIndex 251) := by
  simp [receiveByte, Config.bufDepth, h]

theorem execDRecvMore_next {b : Byte} {s t : State} :
    execDRecvMore b s = .next t ↔ (s.decState = .receiving ∧ s.decCnt.val + 5 < s.decLen.toNat) ∧
      t = { s with
        buf := Memory.write s.buf s.decCnt.val b
        decAcc := csgAcc s.decAcc b
        decCnt := cntSucc s.decCnt
        decState := .receiving
        out := Out.silent } := by
  simp only [execDRecvMore, onlyWhen_next, receiveByte_next]
  constructor
  · rintro ⟨h, -, h'⟩
    exact ⟨h, h'⟩
  · rintro ⟨h, h'⟩
    exact ⟨h, by omega, h'⟩

theorem execDRecvLast_next {b : Byte} {s t : State} :
    execDRecvLast b s = .next t ↔
      (s.decState = .receiving ∧ s.decLen.toNat ≤ s.decCnt.val + 5) ∧ s.decCnt.val < 251 ∧
      t = { s with
        buf := Memory.write s.buf s.decCnt.val b
        decAcc := csgAcc s.decAcc b
        decCnt := cntSucc s.decCnt
        decState := .waitCSum
        out := Out.silent } := by
  simp only [execDRecvLast, onlyWhen_next, receiveByte_next]

theorem execDWaitMatch_next {b : Byte} {s t : State} :
    execDWaitMatch b s = .next t ↔ (s.decState = .waitCSum ∧ s.decAcc = b) ∧
      t = { s with
        decState := .idle
        out := { rx := .frame s.payload, tx := [], fault := none }
        rxEvents := s.rxEvents ++ [.frame s.payload] } := by
  simp only [execDWaitMatch, onlyWhen_next, next_inj, emitRx_eq, csgMatch_iff, RxEvent.toList_frame]

theorem execDWaitMismatch_next {b : Byte} {s t : State} :
    execDWaitMismatch b s = .next t ↔ (s.decState = .waitCSum ∧ s.decAcc ≠ b) ∧
      t = { s with
        decState := .idle
        out := { rx := .csumMismatch s.decAcc b, tx := [], fault := none }
        rxEvents := s.rxEvents ++ [.csumMismatch s.decAcc b] } := by
  simp only [execDWaitMismatch, onlyWhen_next, next_inj, emitRx_eq, csgMatch_false_iff, RxEvent.toList_csumMismatch,
    ne_eq]

/-! ### Encoder rows -/

theorem execEStart_next {n : Byte} {s t : State} :
    execEStart n s = .next t ↔ (s.encState = .eIdle ∧ 1 ≤ n.toNat ∧ n.toNat ≤ 251) ∧
      t = { s with
        encAcc := lenByte n.toNat
        encRem := n
        encState := .ePayload
        out := { rx := .none, tx := frameHead n.toNat, fault := none }
        txBytes := s.txBytes ++ frameHead n.toNat } := by
  simp only [execEStart, onlyWhen_next, next_inj, emitTx_eq, csgSeed_eq, Config.maxPayload]

theorem execEStartEmpty_next {s t : State} :
    execEStartEmpty s = .next t ↔ s.encState = .eIdle ∧
      t = { s with
        encAcc := 4
        encRem := 0
        out := { rx := .none, tx := [0x55, 0xAA, 4, 4], fault := none }
        txBytes := s.txBytes ++ [0x55, 0xAA, 4, 4] } := by
  have h : frameHead 0 ++ [csum (lenByte 0) []] = [0x55, 0xAA, 4, 4] := by decide
  have h' : csgSeed (lenByte 0) = 4 := by decide
  simp only [execEStartEmpty, onlyWhen_next, next_inj, emitTx_eq, h, h']

theorem execEStartBusy_next {n : Byte} {s t : State} :
    execEStartBusy n s = .next t ↔ s.encState = .ePayload ∧ t = raiseFault .encBusy s := by
  simp only [execEStartBusy, onlyWhen_next, next_inj]

theorem execEStartRange_next {n : Byte} {s t : State} :
    execEStartRange n s = .next t ↔ (s.encState = .eIdle ∧ 252 ≤ n.toNat) ∧ t = raiseFault .encLenRange s := by
  simp only [execEStartRange, onlyWhen_next, next_inj]

theorem execEDataMore_next {b : Byte} {s t : State} :
    execEDataMore b s = .next t ↔ (s.encState = .ePayload ∧ 2 ≤ s.encRem.toNat) ∧
      t = { s with
        encAcc := csgAcc s.encAcc b
        encRem := s.encRem - 1
        out := { rx := .none, tx := [b], fault := none }
        txBytes := s.txBytes ++ [b] } := by
  simp only [execEDataMore, onlyWhen_next, next_inj, emitTx_eq]

theorem execEDataLast_next {b : Byte} {s t : State} :
    execEDataLast b s = .next t ↔ (s.encState = .ePayload ∧ s.encRem = 1) ∧
      t = { s with
        encAcc := csgAcc s.encAcc b
        encRem := 0
        encState := .eIdle
        out := { rx := .none, tx := [b, csgAcc s.encAcc b], fault := none }
        txBytes := s.txBytes ++ [b, csgAcc s.encAcc b] } := by
  simp only [execEDataLast, onlyWhen_next, next_inj, emitTx_eq]

theorem execEDataIdle_next {b : Byte} {s t : State} :
    execEDataIdle b s = .next t ↔ s.encState = .eIdle ∧ t = raiseFault .encIdle s := by
  simp only [execEDataIdle, onlyWhen_next, next_inj]

/-! ### Control row -/

theorem execReset_next {d : Byte} {s t : State} :
    execReset d s = .next t ↔ t = { resetRegisters s with out := Out.silent } := by
  simp only [execReset, next_inj, emitNothing_eq]

/-! ### Applying an operation -/

theorem applyOp_ok {w : OpWord} {s : State} {i : Instr} (h : selectRow s w = .ok i) : applyOp w s = exec i s := by
  simp only [applyOp, h]

theorem applyOp_next {w : OpWord} {s t : State} :
    applyOp w s = .next t ↔ ∃ i, selectRow s w = .ok i ∧ exec i s = .next t := by
  unfold applyOp
  cases selectRow s w <;> simp

@[simp] theorem condRegs_decLen (s : State) : s.condRegs.decLen = s.decLen := rfl
@[simp] theorem condRegs_decAcc (s : State) : s.condRegs.decAcc = s.decAcc := rfl
@[simp] theorem condRegs_decCnt (s : State) : s.condRegs.decCnt = s.decCnt := rfl
@[simp] theorem condRegs_encRem (s : State) : s.condRegs.encRem = s.encRem := rfl

/-- The condition of `D_RECV_MORE`, over the naturals. -/
theorem morePayload_iff {r : CondRegs} : r.morePayload = true ↔ r.decCnt.val + 5 < r.decLen.toNat := by
  simp [CondRegs.morePayload]

/-- The condition of `D_RECV_LAST`, over the naturals. -/
theorem morePayload_false_iff {r : CondRegs} : r.morePayload = false ↔ r.decLen.toNat ≤ r.decCnt.val + 5 := by
  simp [CondRegs.morePayload]

/-- The row an `RX` word selects (30_encoding.md R70). -/
@[simp] theorem selectRow_rxWord (s : State) (b : Byte) :
    selectRow s (rxWord b) = .ok (decodeRx s.condRegs s.decState b) := by
  simp [selectRow, formKey, decode, State.unitBits]

/-- The row an `ENC_START` word selects (R71). -/
@[simp] theorem selectRow_encStartWord (s : State) (n : Byte) :
    selectRow s (encStartWord n) = .ok (decodeEncStart s.encState n) := by
  simp [selectRow, formKey, decode, State.unitBits]

/-- The row an `ENC_DATA` word selects (R71). -/
@[simp] theorem selectRow_encDataWord (s : State) (b : Byte) :
    selectRow s (encDataWord b) = decodeEncData s.condRegs s.encState b := by
  simp [selectRow, formKey, decode, State.unitBits]

/-- The row a `RESET` word selects (R71). -/
@[simp] theorem selectRow_reset (s : State) (d : Byte) : selectRow s (opWord .reset d) = .ok (.reset d) := by
  simp [selectRow, formKey, decode]

/-! The same, on a word that is written with its operation code. -/

@[simp] theorem selectRow_opWord_rx (s : State) (b : Byte) :
    selectRow s (opWord .rx b) = .ok (decodeRx s.condRegs s.decState b) := selectRow_rxWord s b

@[simp] theorem selectRow_opWord_encStart (s : State) (n : Byte) :
    selectRow s (opWord .encStart n) = .ok (decodeEncStart s.encState n) := selectRow_encStartWord s n

@[simp] theorem selectRow_opWord_encData (s : State) (b : Byte) :
    selectRow s (opWord .encData b) = decodeEncData s.condRegs s.encState b := selectRow_encDataWord s b

/-- Every operation word is one of the four (30_encoding.md R66). -/
theorem opWord_cases (w : OpWord) :
    (∃ b, w = rxWord b) ∨ (∃ n, w = encStartWord n) ∨ (∃ b, w = encDataWord b) ∨ ∃ d, w = opWord .reset d := by
  have h : w = opWord (wordOp w) (wordData w) := by
    apply BitVec.eq_of_getLsbD_eq
    intro i hi
    rw [opWord_getLsbD, wordOp, OpCode.bits_ofBits, wordData, BitVec.getLsbD_extractLsb', BitVec.getLsbD_extractLsb']
    by_cases h8 : i < 8
    · simp [h8]
    · have h2 : i - 8 < 2 := by omega
      have h3 : 8 + (i - 8) = i := by omega
      simp [h8, h2, h3]
  rw [h]
  cases wordOp w
  · exact .inl ⟨_, rfl⟩
  · exact .inr (.inl ⟨_, rfl⟩)
  · exact .inr (.inr (.inl ⟨_, rfl⟩))
  · exact .inr (.inr (.inr ⟨_, rfl⟩))

/-! ### The row selected belongs to the word -/

theorem encodeWord_decodeRx (r : CondRegs) (st : DecState) (b : Byte) : encodeWord (decodeRx r st b) = rxWord b := by
  unfold decodeRx
  split <;> split <;> first | rfl | (next h => subst h; rfl)

theorem encodeWord_decodeEncStart (st : EncState) (n : Byte) : encodeWord (decodeEncStart st n) = encStartWord n := by
  unfold decodeEncStart
  split
  · split
    · next h => subst h; rfl
    · split <;> rfl
  · rfl

theorem encodeWord_decodeEncData {r : CondRegs} {st : EncState} {b : Byte} {i : Instr}
    (h : decodeEncData r st b = .ok i) : encodeWord i = encDataWord b := by
  unfold decodeEncData at h
  split at h
  · cases h
    rfl
  · split at h
    · cases h
      rfl
    · split at h
      · cases h
        rfl
      · cases h

/-- The row selected by a word is a row of that word. -/
theorem encodeWord_of_selectRow {s : State} {w : OpWord} {i : Instr} (h : selectRow s w = .ok i) :
    encodeWord i = w := by
  rcases opWord_cases w with ⟨b, rfl⟩ | ⟨n, rfl⟩ | ⟨b, rfl⟩ | ⟨d, rfl⟩
  · rw [selectRow_rxWord] at h
    cases h
    exact encodeWord_decodeRx _ _ _
  · rw [selectRow_encStartWord] at h
    cases h
    exact encodeWord_decodeEncStart _ _
  · rw [selectRow_encDataWord] at h
    exact encodeWord_decodeEncData h
  · rw [selectRow_reset] at h
    cases h
    rfl

/-- The row selected by a word has its operation and its operand. -/
theorem op_of_selectRow {s : State} {w : OpWord} {i : Instr} (h : selectRow s w = .ok i) :
    i.op = wordOp w ∧ i.data = wordData w := by
  rw [← encodeWord_of_selectRow h]
  exact ⟨(wordOp_opWord _ _).symm, (wordData_opWord _ _).symm⟩

/-! ### Steps and runs -/

theorem step_nil {s : State} (h : s.pending = []) : step s = .next (idleStep s) := by
  simp only [step, h]

theorem step_cons {s : State} {w : OpWord} {rest : List OpWord} (h : s.pending = w :: rest) :
    step s = applyOp w { s with pending := rest } := by
  simp only [step, h]

/-- Everything a step can do: nothing, with no operation queued, or the row that the next operation selects. -/
theorem step_next_cases {s t : State} (h : step s = .next t) :
    (s.pending = [] ∧ t = { s with out := Out.silent }) ∨
    ∃ w rest i, s.pending = w :: rest ∧ selectRow s w = .ok i ∧ exec i { s with pending := rest } = .next t := by
  cases hp : s.pending with
  | nil =>
    rw [step_nil hp, next_inj] at h
    refine .inl ⟨rfl, ?_⟩
    rw [h, idleStep, hp]
  | cons w rest =>
    rw [step_cons hp] at h
    obtain ⟨i, hi, he⟩ := applyOp_next.mp h
    exact .inr ⟨w, rest, i, rfl, hi, he⟩

@[simp] theorem run_zero (s : State) : Host.Core.run Sys2Proof.core 0 s = .next s := rfl

/-- One step, then the rest of the run. -/
theorem run_succ_of_next {k : Nat} {s t : State} (h : step s = .next t) :
    Host.Core.run Sys2Proof.core (k + 1) s = Host.Core.run Sys2Proof.core k t := by
  have h' : Sys2Proof.core.step s = .next t := h
  exact (Host.Core.run.eq_2 Sys2Proof.core s k).trans (by rw [h'])

/-- A run that answers a next state went through one after its first step. -/
theorem run_succ_next {k : Nat} {s u : State} (h : Host.Core.run Sys2Proof.core (k + 1) s = .next u) :
    ∃ t, step s = .next t ∧ Host.Core.run Sys2Proof.core k t = .next u := by
  have h2 := (Host.Core.run.eq_2 Sys2Proof.core s k).symm.trans h
  cases hs : step s with
  | next t =>
    have h' : Sys2Proof.core.step s = .next t := hs
    rw [h'] at h2
    exact ⟨t, rfl, h2⟩
  | fault r =>
    have h' : Sys2Proof.core.step s = .fault r := hs
    rw [h'] at h2
    cases h2
  | refused r =>
    have h' : Sys2Proof.core.step s = .refused r := hs
    rw [h'] at h2
    cases h2

/-- Runs put end to end. -/
theorem run_add {j k : Nat} {s t : State} (h : Host.Core.run Sys2Proof.core j s = .next t) :
    Host.Core.run Sys2Proof.core (j + k) s = Host.Core.run Sys2Proof.core k t := by
  induction j generalizing s with
  | zero =>
    cases h
    rw [Nat.zero_add]
  | succ j ih =>
    obtain ⟨u, hu, hr⟩ := run_succ_next h
    rw [Nat.add_right_comm, run_succ_of_next hu]
    exact ih hr

end Sys2Proof.Machine
end

