-- ==== Sys2Proof/Laws/PerInstr.lean ====
section
/-! SUPPORT. Statements made per instruction, one lemma per constructor of `Instr`.
`EncodeFields`: the key written for an instruction holds its state bits, its operation and its data in the fields of
30_encoding.md R69, and its word is the key without the state bits. -/

namespace Sys2Proof.Laws.EncodeFields

/-- The statement of the family. -/
def Statement (i : Instr) : Prop :=
  keyState (encode i) = i.stateBits ∧ keyOp (encode i) = i.op ∧ keyData (encode i) = i.data ∧
    keyWord (encode i) = encodeWord i

theorem fields (i : Instr) : Statement i :=
  ⟨keyState_mkKey _ _ _, keyOp_mkKey _ _ _, keyData_mkKey _ _ _, keyWord_mkKey _ _ _⟩

theorem dIdleSync1 : Statement .dIdleSync1 := fields _
theorem dIdleOther (b : Byte) : Statement (.dIdleOther b) := fields _
theorem dH2Sync2 : Statement .dH2Sync2 := fields _
theorem dH2Other (b : Byte) : Statement (.dH2Other b) := fields _
theorem dHokLenPayload (b : Byte) : Statement (.dHokLenPayload b) := fields _
theorem dHokLenEmpty (b : Byte) : Statement (.dHokLenEmpty b) := fields _
theorem dRecvMore (b : Byte) : Statement (.dRecvMore b) := fields _
theorem dRecvLast (b : Byte) : Statement (.dRecvLast b) := fields _
theorem dWaitMatch (b : Byte) : Statement (.dWaitMatch b) := fields _
theorem dWaitMismatch (b : Byte) : Statement (.dWaitMismatch b) := fields _
theorem eStart (n : Byte) : Statement (.eStart n) := fields _
theorem eStartEmpty : Statement .eStartEmpty := fields _
theorem eStartBusy (n : Byte) : Statement (.eStartBusy n) := fields _
theorem eStartRange (n : Byte) : Statement (.eStartRange n) := fields _
theorem eDataMore (b : Byte) : Statement (.eDataMore b) := fields _
theorem eDataLast (b : Byte) : Statement (.eDataLast b) := fields _
theorem eDataIdle (b : Byte) : Statement (.eDataIdle b) := fields _
theorem reset (data : Byte) : Statement (.reset data) := fields _

end Sys2Proof.Laws.EncodeFields
end

