-- ==== Sys2Proof/Laws/Run.lean ====
section
/-! SUPPORT. The queue and the meanings do not look at each other, so a run over queued operations is the same
operations applied one after another (`runOps_iff`). -/

namespace Sys2Proof.Machine

/-- A meaning reads and writes nothing of the queue. -/
theorem exec_pending {i : Instr} {s t : State} (x : List OpWord) (h : exec i s = .next t) :
    exec i { s with pending := x } = .next { t with pending := x } ∧ t.pending = s.pending := by
  cases i with
  | dIdleSync1 =>
    obtain ⟨h1, rfl⟩ := execDIdleSync1_next.mp h
    exact ⟨execDIdleSync1_next.mpr ⟨h1, rfl⟩, rfl⟩
  | dIdleOther b =>
    obtain ⟨h1, rfl⟩ := (execDIdleOther_next (b := b)).mp h
    exact ⟨(execDIdleOther_next (b := b)).mpr ⟨h1, rfl⟩, rfl⟩
  | dH2Sync2 =>
    obtain ⟨h1, rfl⟩ := execDH2Sync2_next.mp h
    exact ⟨execDH2Sync2_next.mpr ⟨h1, rfl⟩, rfl⟩
  | dH2Other b =>
    obtain ⟨h1, rfl⟩ := (execDH2Other_next (b := b)).mp h
    exact ⟨(execDH2Other_next (b := b)).mpr ⟨h1, rfl⟩, rfl⟩
  | dHokLenPayload b =>
    obtain ⟨h1, rfl⟩ := (execDHokLenPayload_next (b := b)).mp h
    exact ⟨(execDHokLenPayload_next (b := b)).mpr ⟨h1, rfl⟩, rfl⟩
  | dHokLenEmpty b =>
    obtain ⟨h1, rfl⟩ := (execDHokLenEmpty_next (b := b)).mp h
    exact ⟨(execDHokLenEmpty_next (b := b)).mpr ⟨h1, rfl⟩, rfl⟩
  | dRecvMore b =>
    obtain ⟨h1, rfl⟩ := (execDRecvMore_next (b := b)).mp h
    exact ⟨(execDRecvMore_next (b := b)).mpr ⟨h1, rfl⟩, rfl⟩
  | dRecvLast b =>
    obtain ⟨h1, h2, rfl⟩ := (execDRecvLast_next (b := b)).mp h
    exact ⟨(execDRecvLast_next (b := b)).mpr ⟨h1, h2, rfl⟩, rfl⟩
  | dWaitMatch b =>
    obtain ⟨h1, rfl⟩ := (execDWaitMatch_next (b := b)).mp h
    exact ⟨(execDWaitMatch_next (b := b)).mpr ⟨h1, rfl⟩, rfl⟩
  | dWaitMismatch b =>
    obtain ⟨h1, rfl⟩ := (execDWaitMismatch_next (b := b)).mp h
    exact ⟨(execDWaitMismatch_next (b := b)).mpr ⟨h1, rfl⟩, rfl⟩
  | eStart n =>
    obtain ⟨h1, rfl⟩ := (execEStart_next (n := n)).mp h
    exact ⟨(execEStart_next (n := n)).mpr ⟨h1, rfl⟩, rfl⟩
  | eStartEmpty =>
    obtain ⟨h1, rfl⟩ := execEStartEmpty_next.mp h
    exact ⟨execEStartEmpty_next.mpr ⟨h1, rfl⟩, rfl⟩
  | eStartBusy n =>
    obtain ⟨h1, rfl⟩ := (execEStartBusy_next (n := n)).mp h
    exact ⟨(execEStartBusy_next (n := n)).mpr ⟨h1, rfl⟩, rfl⟩
  | eStartRange n =>
    obtain ⟨h1, rfl⟩ := (execEStartRange_next (n := n)).mp h
    exact ⟨(execEStartRange_next (n := n)).mpr ⟨h1, rfl⟩, rfl⟩
  | eDataMore b =>
    obtain ⟨h1, rfl⟩ := (execEDataMore_next (b := b)).mp h
    exact ⟨(execEDataMore_next (b := b)).mpr ⟨h1, rfl⟩, rfl⟩
  | eDataLast b =>
    obtain ⟨h1, rfl⟩ := (execEDataLast_next (b := b)).mp h
    exact ⟨(execEDataLast_next (b := b)).mpr ⟨h1, rfl⟩, rfl⟩
  | eDataIdle b =>
    obtain ⟨h1, rfl⟩ := (execEDataIdle_next (b := b)).mp h
    exact ⟨(execEDataIdle_next (b := b)).mpr ⟨h1, rfl⟩, rfl⟩
  | reset d =>
    cases (execReset_next (d := d)).mp h
    exact ⟨(execReset_next (d := d)).mpr rfl, rfl⟩

/-- The same of an operation. -/
theorem applyOp_pending {w : OpWord} {s t : State} (x : List OpWord) (h : applyOp w s = .next t) :
    applyOp w { s with pending := x } = .next { t with pending := x } ∧ t.pending = s.pending := by
  obtain ⟨i, hi, he⟩ := applyOp_next.mp h
  have h' := exec_pending x he
  exact ⟨applyOp_next.mpr ⟨i, hi, h'.1⟩, h'.2⟩

/-- Queueing what is queued changes nothing. -/
theorem pending_self {s : State} {x : List OpWord} (h : s.pending = x) : { s with pending := x } = s := by
  subst h
  rfl

/-! ### Operations one after another -/

/-- The first operation, then the others. -/
theorem applyOps_cons_next {w : OpWord} {ws : List OpWord} {s t : State} :
    applyOps (w :: ws) s = .next t ↔ ∃ u, applyOp w s = .next u ∧ applyOps ws u = .next t := by
  rw [applyOps]
  cases applyOp w s <;> simp

/-- Lists of operations put end to end. -/
theorem applyOps_append_next {vs ws : List OpWord} {s t : State} :
    applyOps (vs ++ ws) s = .next t ↔ ∃ u, applyOps vs s = .next u ∧ applyOps ws u = .next t := by
  induction vs generalizing s with
  | nil => simp [applyOps]
  | cons v vs ih =>
    simp only [List.cons_append, applyOps_cons_next, ih]
    constructor
    · rintro ⟨u, h1, x, h2, h3⟩
      exact ⟨x, ⟨u, h1, h2⟩, h3⟩
    · rintro ⟨x, ⟨u, h1, h2⟩, h3⟩
      exact ⟨u, h1, x, h2, h3⟩

/-- The other operations, then the last one. -/
theorem applyOps_concat_next {ws : List OpWord} {w : OpWord} {s t : State} :
    applyOps (ws ++ [w]) s = .next t ↔ ∃ u, applyOps ws s = .next u ∧ applyOp w u = .next t := by
  have h1 : ∀ u, applyOps [w] u = .next t ↔ applyOp w u = .next t := by
    intro u
    rw [applyOps_cons_next]
    simp [applyOps]
  simp only [applyOps_append_next, h1]

/-! ### A run over queued operations -/

/-- As many steps as there are operations at the head of the queue are those operations applied in order. -/
theorem run_queued_iff {ws rest : List OpWord} {s t : State} :
    Host.Core.run Sys2Proof.core ws.length { s with pending := ws ++ rest } = .next t ↔
      applyOps ws { s with pending := rest } = .next t := by
  induction ws generalizing s with
  | nil => exact Iff.rfl
  | cons w ws ih =>
    rw [applyOps_cons_next]
    constructor
    · intro h
      obtain ⟨u, h1, h2⟩ := run_succ_next h
      rw [step_cons (w := w) (rest := ws ++ rest) rfl] at h1
      have hu := pending_self (applyOp_pending [] h1).2
      rw [← hu] at h2
      exact ⟨_, (applyOp_pending rest h1).1, ih.mp h2⟩
    · rintro ⟨u, h1, h2⟩
      have hs : step { s with pending := (w :: ws) ++ rest } = .next { u with pending := ws ++ rest } :=
        (step_cons (w := w) (rest := ws ++ rest) rfl).trans (applyOp_pending (ws ++ rest) h1).1
      have hu := pending_self (applyOp_pending [] h1).2
      rw [← hu] at h2
      exact (run_succ_of_next hs).trans (ih.mpr h2)

/-- A run from reset (70_reset_and_hazards.md R150) is its operations applied to the reset state. -/
theorem runOps_iff {ws : List OpWord} {t : State} : runOps ws = .next t ↔ applyOps ws State.reset = .next t := by
  have h : loaded ws = { State.reset with pending := ws ++ [] } := by rw [List.append_nil]; rfl
  unfold runOps
  rw [h]
  exact run_queued_iff (rest := []) (s := State.reset)

/-- A claim that holds of every run holds in the form 60_exceptions.md R132 asks for. -/
theorem claimOfRuns_of_forall {C : List OpWord → State → Prop} (h : ∀ ws t, runOps ws = .next t → C ws t) :
    ClaimOfRuns C := fun ws t hr _ => h ws t hr

/-! ### Runs at the register level -/

/-- A clock edge is its accepted operations, then the registers' update. -/
theorem clock_next {p q : PortState} {i : PortIn} :
    p.clock i = .next q ↔ ∃ c, applyOps (p.accepted i) p.core = .next c ∧ q = p.after i c := by
  unfold PortState.clock
  cases applyOps (p.accepted i) p.core <;> simp [eq_comm]

/-- The first cycle, then the others. -/
theorem cycles_cons_next {p q : PortState} {i : PortIn} {ins : List PortIn} :
    PortState.cycles (i :: ins) p = .next q ↔ ∃ r, p.clock i = .next r ∧ PortState.cycles ins r = .next q := by
  rw [PortState.cycles]
  cases p.clock i <;> simp

/-- The operations of the first cycle, then those of the others. -/
theorem acceptedIn_cons {p r : PortState} {i : PortIn} {ins : List PortIn} (h : p.clock i = .next r) :
    PortState.acceptedIn (i :: ins) p = p.accepted i ++ PortState.acceptedIn ins r := by
  rw [PortState.acceptedIn, h]

/-- Cycles do to the block what the operations accepted in them do. -/
theorem cycles_core {ins : List PortIn} {p q : PortState} (h : PortState.cycles ins p = .next q) :
    applyOps (PortState.acceptedIn ins p) p.core = .next q.core := by
  induction ins generalizing p with
  | nil =>
    cases h
    rfl
  | cons i ins ih =>
    obtain ⟨r, h1, h2⟩ := cycles_cons_next.mp h
    obtain ⟨c, h3, rfl⟩ := clock_next.mp h1
    rw [acceptedIn_cons h1]
    exact applyOps_append_next.mpr ⟨c, h3, ih h2⟩

/-! ### Runs of operations -/

/-- What a run does before its last operation, and with it. -/
theorem runOps_concat_next {ws : List OpWord} {w : OpWord} {t : State} :
    runOps (ws ++ [w]) = .next t ↔ ∃ u, runOps ws = .next u ∧ applyOp w u = .next t := by
  simp only [runOps_iff, applyOps_concat_next]

end Sys2Proof.Machine
end

