-- ==== Sys2Proof/Tests/Slice0.lean ====
section
/-! SUPPORT. Tests. Expected values are those of spec/: the rows of 30_encoding.md R70 and R71, the worked examples of
the rules, and the vectors of 95_test_vectors.md, cited by name. `test_meets_…` shows states and operands that meet the
hypotheses of the statement it names, one theorem for each clause, at a boundary value where the clause has a range. -/

namespace Sys2Proof.Tests

open Sys2Proof Sys2Proof.Machine

/-! ### Helpers -/

/-- A field of the next state, none where there is no next state. -/
def see {α : Type} (f : State → α) : Result → Option α
  | .next s => some (f s)
  | .fault _ => none
  | .refused _ => none

/-- The reset state with the decoder in `st`, receiving a frame. -/
def dec (st : DecState) (len acc : Byte) (cnt : Fin 252) (buf : Memory) : State :=
  { State.reset with decState := st, decLen := len, decAcc := acc, decCnt := cnt, buf := buf }

/-- The reset state with the encoder in `EPayload`. -/
def enc (rem acc : Byte) : State := { State.reset with encState := .ePayload, encRem := rem, encAcc := acc }

/-- `DEC_STATE`, `DEC_LEN`, `DEC_ACC`, `DEC_CNT` and the event. -/
def decSee (s : State) : DecState × Byte × Byte × Nat × RxEvent :=
  (s.decState, s.decLen, s.decAcc, s.decCnt.val, s.out.rx)

/-- `ENC_STATE`, `ENC_REM`, `ENC_ACC`, `ERR` and the bytes. -/
def encSee (s : State) : EncState × Byte × Byte × BitVec 3 × List Byte :=
  (s.encState, s.encRem, s.encAcc, s.err, s.out.tx)

/-! ### Well-formed instructions: one ill-formed term for each check (R70, R71) -/

theorem test_ill_formed_idle_other : (Instr.dIdleOther 0x55).wellFormed = false := by decide
theorem test_ill_formed_h2_other : (Instr.dH2Other 0xAA).wellFormed = false := by decide
theorem test_ill_formed_len_payload : (Instr.dHokLenPayload 4).wellFormed = false := by decide
theorem test_ill_formed_len_empty : (Instr.dHokLenEmpty 5).wellFormed = false := by decide
theorem test_ill_formed_start_zero : (Instr.eStart 0).wellFormed = false := by decide
theorem test_ill_formed_start_long : (Instr.eStart 252).wellFormed = false := by decide
theorem test_ill_formed_start_range : (Instr.eStartRange 251).wellFormed = false := by decide

/-! ### Decoding: keys written out bit by bit, `{state, OP, DATA}` (R69 to R71) -/

/-- Registers for the rows whose condition reads one. -/
def regs : CondRegs := { decLen := 6, decAcc := 9, decCnt := 0, encRem := 2 }

theorem test_key_idle_sync1 : decode regs 0b0000001010101 = .ok .dIdleSync1 := by rfl
theorem test_key_idle_other : decode regs 0b0000010101010 = .ok (.dIdleOther 0xAA) := by rfl
theorem test_key_h2_sync2 : decode regs 0b0010010101010 = .ok .dH2Sync2 := by rfl
theorem test_key_h2_other : decode regs 0b0010001010101 = .ok (.dH2Other 0x55) := by rfl
theorem test_key_len_payload : decode regs 0b0100000000101 = .ok (.dHokLenPayload 5) := by rfl
theorem test_key_len_empty : decode regs 0b0100000000100 = .ok (.dHokLenEmpty 4) := by rfl
theorem test_key_recv_more : decode regs 0b0110000000001 = .ok (.dRecvMore 1) := by rfl
theorem test_key_recv_last : decode { regs with decCnt := 1 } 0b0110000000010 = .ok (.dRecvLast 2) := by rfl
theorem test_key_wait_match : decode regs 0b1000000001001 = .ok (.dWaitMatch 9) := by rfl
theorem test_key_wait_mismatch : decode regs 0b1000000001000 = .ok (.dWaitMismatch 8) := by rfl
theorem test_key_start : decode regs 0b0000111111011 = .ok (.eStart 251) := by rfl
theorem test_key_start_empty : decode regs 0b0000100000000 = .ok .eStartEmpty := by rfl
theorem test_key_start_busy : decode regs 0b0010111111100 = .ok (.eStartBusy 252) := by rfl
theorem test_key_start_range : decode regs 0b0000111111100 = .ok (.eStartRange 252) := by rfl
theorem test_key_data_more : decode regs 0b0011000000001 = .ok (.eDataMore 1) := by rfl
theorem test_key_data_last : decode { regs with encRem := 1 } 0b0011000000010 = .ok (.eDataLast 2) := by rfl
theorem test_key_data_idle : decode regs 0b0001000000001 = .ok (.eDataIdle 1) := by rfl
theorem test_key_reset : decode regs 0b1111100000000 = .ok (.reset 0) := by rfl
theorem test_key_reserved : decode regs 0b1010001010101 = .error .reservedDecState := by rfl
theorem test_key_reserved_enc : decode regs 0b0100100000001 = .error .reservedEncState := by rfl

/-- The operation words of 95_test_vectors.md, program P1. -/
theorem test_words :
    encodeWord (.eStart 2) = 0x102 ∧ encodeWord (.eDataMore 1) = 0x201 ∧ encodeWord (.eDataLast 2) = 0x202 ∧
      encodeWord .dIdleSync1 = 0x055 ∧ encodeWord .dH2Sync2 = 0x0AA ∧ encodeWord (.reset 0) = 0x300 := by decide

/-- The table's match words, with the registers of log entry 11; five rows share the bare key of another. -/
theorem test_table_words :
    decodeTableWord 16 0x0055 = some .dIdleSync1 ∧ decodeTableWord 16 0x0000 = some (.dIdleOther 0) ∧
    decodeTableWord 16 0x04AA = some .dH2Sync2 ∧ decodeTableWord 16 0x0400 = some (.dH2Other 0) ∧
    decodeTableWord 16 0x0800 = some (.dHokLenEmpty 0) ∧ decodeTableWord 16 0x0C00 = some (.dRecvLast 0) ∧
    decodeTableWord 16 0x1000 = some (.dWaitMatch 0) ∧ decodeTableWord 16 0x0100 = some .eStartEmpty ∧
    decodeTableWord 16 0x0500 = some (.eStartBusy 0) ∧ decodeTableWord 16 0x01FC = some (.eStartRange 252) ∧
    decodeTableWord 16 0x0600 = some (.eDataLast 0) ∧ decodeTableWord 16 0x0200 = some (.eDataIdle 0) ∧
    decodeTableWord 16 0x0300 = some (.reset 0) ∧ decodeTableWord 16 0x2000 = none ∧
    decodeTableWord 16 0x1400 = none := by decide

theorem test_table_words_with_data :
    decodeTableWord 16 0x0805 = some (.dHokLenPayload 5) ∧ decodeTableWord 16 0x1001 = some (.dWaitMismatch 1) ∧
    decodeTableWord 16 0x0101 = some (.eStart 1) := by decide

/-! ### One step of each row -/

/-- The step of a word from a state. -/
def after (w : OpWord) (s : State) : Result := step { s with pending := [w] }

/-- R91. -/
theorem test_idle_sync1 : see decSee (after 0x055 State.reset) = some (.header2, 0, 0, 0, .none) := by decide
/-- R92. -/
theorem test_idle_other : see decSee (after 0x0AA State.reset) = some (.idle, 0, 0, 0, .none) := by decide
/-- R93. -/
theorem test_h2_sync2 : see decSee (after 0x0AA (dec .header2 0 0 0 [])) = some (.headerOk, 0, 0, 0, .none) := by decide
/-- R94, DEC-11: a second 0x55 goes to `Idle`. -/
theorem test_h2_other : see decSee (after 0x055 (dec .header2 0 0 0 [])) = some (.idle, 0, 0, 0, .none) := by decide
/-- R95; the count of an earlier frame is cleared. -/
theorem test_len_payload :
    see decSee (after 0x006 (dec .headerOk 9 8 7 [(0, 1)])) = some (.receiving, 6, 6, 0, .none) := by decide
/-- DEC-16: 0x55 in `HeaderOk` is a length. -/
theorem test_len_positional :
    see decSee (after 0x055 (dec .headerOk 0 0 0 [])) = some (.receiving, 0x55, 0x55, 0, .none) := by decide
/-- R96. -/
theorem test_len_empty :
    see decSee (after 0x004 (dec .headerOk 0 0 0 [])) = some (.waitCSum, 4, 4, 0, .none) := by decide
/-- DEC-14: a short length. -/
theorem test_len_short :
    see decSee (after 0x003 (dec .headerOk 0 0 0 [])) = some (.waitCSum, 3, 3, 0, .none) := by decide
/-- R97's example, with the buffer. -/
theorem test_recv_more :
    see decSee (after 0x001 (dec .receiving 6 6 0 [])) = some (.receiving, 6, 7, 1, .none) ∧
      see (fun s => s.buf) (after 0x001 (dec .receiving 6 6 0 [])) = some [(0, 1)] := by decide
/-- R98's example, with the buffer. -/
theorem test_recv_last :
    see decSee (after 0x002 (dec .receiving 6 7 1 [(0, 1)])) = some (.waitCSum, 6, 9, 2, .none) ∧
      see (fun s => s.buf) (after 0x002 (dec .receiving 6 7 1 [(0, 1)])) = some [(0, 1), (1, 2)] := by decide
/-- DEC-17's last payload byte is stored at index 250. -/
theorem test_recv_last_at_the_end :
    see decSee (after 0x001 (dec .receiving 0xFF 0xFF 250 [])) = some (.waitCSum, 0xFF, 0, 251, .none) ∧
      see (fun s => s.buf) (after 0x001 (dec .receiving 0xFF 0xFF 250 [])) = some [(250, 1)] := by decide
/-- R99's example. -/
theorem test_wait_match :
    see decSee (after 0x009 (dec .waitCSum 6 9 2 [(0, 1), (1, 2)])) = some (.idle, 6, 9, 2, .frame [1, 2]) := by decide
/-- R100's example. -/
theorem test_wait_mismatch :
    see decSee (after 0x008 (dec .waitCSum 6 9 2 [(0, 1), (1, 2)])) = some (.idle, 6, 9, 2, .csumMismatch 9 8) := by
  decide
/-- R111's example. -/
theorem test_start :
    see encSee (after 0x102 State.reset) = some (.ePayload, 2, 6, 0, [0x55, 0xAA, 6]) := by decide
/-- R111's corner case: `n = 251` emits `LEN = 0xFF`. -/
theorem test_start_longest :
    see encSee (after 0x1FB State.reset) = some (.ePayload, 251, 0xFF, 0, [0x55, 0xAA, 0xFF]) := by decide
/-- ENC-2. -/
theorem test_start_empty :
    see encSee (after 0x100 State.reset) = some (.eIdle, 0, 4, 0, [0x55, 0xAA, 4, 4]) := by decide
/-- ENC-9. -/
theorem test_start_busy : see encSee (after 0x101 (enc 2 6)) = some (.ePayload, 2, 6, 0b001, []) := by decide
/-- ENC-12: only `ENC_BUSY` is reported. -/
theorem test_start_busy_long :
    see encSee (after 0x1FC (enc 1 5)) = some (.ePayload, 1, 5, 0b001, []) ∧
      see (fun s => s.faultLog) (after 0x1FC (enc 1 5)) = some [.encBusy] := by decide
/-- ENC-8. -/
theorem test_start_range :
    see encSee (after 0x1FC State.reset) = some (.eIdle, 0, 0, 0b010, []) ∧
      see (fun s => s.faultLog) (after 0x1FC State.reset) = some [.encLenRange] := by decide
/-- R115's example. -/
theorem test_data_more : see encSee (after 0x201 (enc 2 6)) = some (.ePayload, 1, 7, 0, [1]) := by decide
/-- P3, step 4: the accumulator wraps. -/
theorem test_data_more_wraps : see encSee (after 0x2FF (enc 2 6)) = some (.ePayload, 1, 5, 0, [0xFF]) := by decide
/-- R116's example. -/
theorem test_data_last : see encSee (after 0x202 (enc 1 7)) = some (.eIdle, 0, 9, 0, [2, 9]) := by decide
/-- ENC-6: the checksum is 00. -/
theorem test_data_last_zero : see encSee (after 0x2FB (enc 1 5)) = some (.eIdle, 0, 0, 0, [0xFB, 0]) := by decide
/-- ENC-10. -/
theorem test_data_idle :
    see encSee (after 0x201 State.reset) = some (.eIdle, 0, 0, 0b100, []) ∧
      see (fun s => s.faultLog) (after 0x201 State.reset) = some [.encIdle] := by decide
/-- RST-3: `ERR` is cleared, the fault log is not. -/
theorem test_reset :
    see (fun s => (s.decState, s.encState, s.err, s.faultLog, s.out))
        (after 0x300 { enc 2 6 with decState := .receiving, err := 0b100, faultLog := [.encIdle] }) =
      some (.idle, .eIdle, 0b000, [.encIdle], { rx := .none, tx := [], fault := none }) := by decide
/-- R66: every `DATA` resets. -/
theorem test_reset_any_data : see (fun s => s.encState) (after 0x3FF (enc 2 6)) = some .eIdle := by decide
/-- With nothing queued the block waits. -/
theorem test_idle_step : see decSee (step (dec .receiving 6 7 1 [(0, 1)])) = some (.receiving, 6, 7, 1, .none) := by
  decide

/-! ### The checksum generator (CSG-1 to CSG-14) and `encode` (SRC-1, ENC-3 to ENC-6) -/

theorem test_csg :
    csgSeed 6 = 6 ∧ csgAcc 6 1 = 7 ∧ csgAcc 7 2 = 9 ∧ csgAcc 0xFF 1 = 0 ∧ csgAcc 0xFF 0xFF = 0xFE ∧
      csgAcc 0x80 0x80 = 0 ∧ csgAcc 0x5A 0 = 0x5A ∧ csgMatch 9 9 = true ∧ csgMatch 9 8 = false := by decide
theorem test_csum :
    csum 6 [0xFF, 0xFF] = 4 ∧ csum 4 [] = 4 ∧ csum 5 [0xFB] = 0 ∧ csum 6 [0x55, 0xAA] = 5 := by decide
theorem test_encode :
    encodeFrame [1, 2] = [0x55, 0xAA, 6, 1, 2, 9] ∧ encodeFrame [] = [0x55, 0xAA, 4, 4] ∧
      encodeFrame [0x55, 0xAA] = [0x55, 0xAA, 6, 0x55, 0xAA, 5] ∧ encodeFrame [0x80] = [0x55, 0xAA, 5, 0x80, 0x85] := by
  decide

/-! ### Text (R74, R75) -/

theorem test_line_hex : Asm.line ['r', 'x', ' ', '0', 'x', '5', '5'] = some [0x055] := by decide
theorem test_line_decimal :
    Asm.line ['e', 'n', 'c', '.', 's', 't', 'a', 'r', 't', ' ', '2', '5', '2', ' ', ';', 'r'] = some [0x1FC] := by decide
theorem test_line_too_large : Asm.line ['r', 'x', ' ', '2', '5', '6'] = none := by decide
theorem test_line_frame :
    Asm.line ['r', 'x', '.', 'f', 'r', 'a', 'm', 'e', ' ', '1', ' ', '2'] = some [0x055, 0x0AA, 6, 1, 2, 9] := by decide
theorem test_program : Asm.program ['r', 'e', 's', 'e', 't', '\n', ';', '\n', 'r', 'x', ' ', '1'] =
    some [0x300, 0x001] := by decide

/-! ### The register level (R34) -/

/-- A cycle's inputs with nothing offered. -/
def quiet : PortIn :=
  { rst := false, rxValid := false, rxData := 0, bufRaddr := 0, encValid := false, encOp := 0, encData := 0,
    txReady := false }

/-- The registers over a block's state, with bytes that the sink has not taken. -/
def port (s : State) (txq : List Byte) : PortState := { PortState.reset with core := s, txq := txq }

/-- The core after a clock edge. -/
def coreAfter (p : PortState) (i : PortIn) : Option (DecState × EncState) :=
  match p.clock i with
  | .next q => some (q.core.decState, q.core.encState)
  | .fault _ => none
  | .refused _ => none

/-- A byte and an encoder operation of one cycle both happen. -/
theorem test_port_both :
    coreAfter (port State.reset [])
      { quiet with rxValid := true, rxData := 0x55, encValid := true, encOp := 0, encData := 2 } =
      some (.header2, .ePayload) := by decide
/-- `enc_ready` is low while a byte waits, so the operation is not accepted. -/
theorem test_port_not_ready :
    coreAfter (port State.reset [0x55]) { quiet with encValid := true, encOp := 0, encData := 2 } =
      some (.idle, .eIdle) := by decide
/-- The mismatch is shown in the cycle after the byte. -/
theorem test_port_pulse :
    (match (port (dec .waitCSum 6 9 2 [(0, 1), (1, 2)]) []).clock { quiet with rxValid := true, rxData := 8 } with
      | .next q => some ((q.outputs quiet).evValid, (q.outputs quiet).evCode, (q.outputs quiet).evReceived)
      | .fault _ => none
      | .refused _ => none) = some (true, 2, 8) := by decide

/-! ### States and operands that meet the hypotheses of the statements -/

/-- The decoder's invariants of a state in the middle of a frame. -/
theorem test_inv_receiving : DecInv (dec .receiving 6 7 1 [(0, 1)]) :=
  ⟨by decide, by decide, by decide, fun _ => by decide⟩
/-- The decoder's invariants of a state at the checksum byte. -/
theorem test_inv_waiting : DecInv (dec .waitCSum 6 9 2 [(0, 1), (1, 2)]) :=
  ⟨by decide, by decide, by decide, fun _ => by decide⟩

/-- An encoder state in the middle of a frame of two bytes, one of them accepted. -/
def encOpen : State := { enc 1 7 with txBytes := [0x55, 0xAA, 6, 1] }

/-- The open frame of `encOpen`. -/
theorem test_open : OpenFrame encOpen 2 [1] := ⟨by decide, by decide, by decide, by decide⟩
/-- The encoder's invariants of a state in the middle of a frame. -/
theorem test_inv_encoder : EncInv encOpen := fun _ => ⟨[], 2, [1], by decide, test_open⟩

theorem test_meets_ExactlyOneRowSelects_rx :
    keyOp 0x1009 = .rx ∧ keyState 0x1009 = DecState.waitCSum.bits := by decide
theorem test_meets_ExactlyOneRowSelects_start :
    keyOp 0x05FC = .encStart ∧ keyState 0x05FC = EncState.ePayload.bits := by decide
theorem test_meets_ExactlyOneRowSelects_data :
    keyOp 0x0601 = .encData ∧ keyState 0x0601 = EncState.ePayload.bits ∧ 1 ≤ tableRegs.encRem.toNat := by decide

theorem test_meets_DecodeOfEncode :
    (∀ i ∈ [Instr.dIdleOther 0xFF, .dH2Other 0x55, .dHokLenPayload 5, .dHokLenPayload 255, .dHokLenEmpty 4,
        .dHokLenEmpty 0, .dRecvMore 1, .dWaitMatch 9, .dWaitMismatch 8, .eStart 1, .eStart 251, .eStartRange 252,
        .eStartRange 255, .eDataMore 1],
      i.wellFormed = true ∧ i.cond regs = true) ∧
    (Instr.dRecvLast 0).cond { regs with decCnt := 1 } = true ∧
    (Instr.eDataLast 0).cond { regs with encRem := 1 } = true := by decide

theorem test_meets_PlacedWordRuns : decodeTableWord 16 0x0C00 = some (.dRecvLast 0) := by decide

/-- Every table word of the 18 rows runs right after reset. -/
theorem test_placed_words_run :
    ∀ w ∈ [0x0055, 0x0000, 0x04AA, 0x0400, 0x0800, 0x0805, 0x0C00, 0x1000, 0x1001, 0x0101, 0x0100, 0x0500, 0x01FC,
        0x0600, 0x0200, 0x0300],
      see (fun _ => ()) (step (State.reset.withFetchWord 16 w)) = some () := by decide

theorem test_meets_StepRunsTheSelectedRow :
    decode (enc 1 7).condRegs (formKey (enc 1 7) 0x202) = .ok (.eDataLast 2) := by rfl
theorem test_meets_StepRunsTheSelectedRow_none :
    decode (enc 0 7).condRegs (formKey (enc 0 7) 0x202) = .error .noPayloadExpected := by rfl
theorem test_meets_IdleStepWaits : (dec .receiving 6 7 1 [(0, 1)]).pending = [] := by rfl
theorem test_meets_RowRunsWhereSelected :
    (∃ t, exec (.eDataLast 2) (enc 1 7) = .next t) ∧ selectRow (enc 1 7) 0x202 = .ok (.eDataLast 2) :=
  ⟨⟨_, rfl⟩, rfl⟩
theorem test_meets_RowRunsWhereSelected_end :
    selectRow (dec .receiving 0xFF 0 251 []) 0x007 = .ok (.dRecvLast 7) := by rfl
theorem test_meets_NoStepStops :
    DecInv (dec .receiving 6 7 1 [(0, 1)]) ∧ EncInv (dec .receiving 6 7 1 [(0, 1)]) ∧ DecInv encOpen ∧
      EncInv encOpen :=
  ⟨test_inv_receiving, fun h => (by cases h), ⟨by decide, by decide, by decide, fun h => (by revert h; decide)⟩,
    test_inv_encoder⟩

theorem test_meets_IdleRows : State.reset.decState = .idle ∧ (0xAA : Byte) ≠ 0x55 := by decide
theorem test_meets_HeaderTwoRows : (dec .header2 0 0 0 []).decState = .header2 ∧ (0x55 : Byte) ≠ 0xAA := by decide
theorem test_meets_LengthRows :
    (dec .headerOk 0 0 0 []).decState = .headerOk ∧ 5 ≤ (5 : Byte).toNat ∧ (4 : Byte).toNat ≤ 4 := by decide
/-- The last index of `D_RECV_MORE`. -/
theorem test_meets_PayloadRows_more :
    (dec .receiving 0xFF 0 249 []).decState = .receiving ∧
      (dec .receiving 0xFF 0 249 []).decCnt.val + 1 + 4 < (dec .receiving 0xFF 0 249 []).decLen.toNat := by decide
/-- The last index of `D_RECV_LAST`. -/
theorem test_meets_PayloadRows_last :
    (dec .receiving 0xFF 0 250 []).decState = .receiving ∧
      (dec .receiving 0xFF 0 250 []).decLen.toNat ≤ (dec .receiving 0xFF 0 250 []).decCnt.val + 1 + 4 ∧
      (dec .receiving 0xFF 0 250 []).decCnt.val ≤ 250 := by decide
theorem test_meets_PayloadRows_inv :
    DecInv (dec .receiving 6 7 1 [(0, 1)]) ∧
      (dec .receiving 6 7 1 [(0, 1)]).decLen.toNat ≤ (dec .receiving 6 7 1 [(0, 1)]).decCnt.val + 1 + 4 :=
  ⟨test_inv_receiving, by decide⟩
theorem test_meets_BufWritePastTheEndFaults :
    (dec .receiving 0xFF 0 251 []).decState = .receiving ∧ (dec .receiving 0xFF 0 251 []).decCnt.val = 251 := by decide
theorem test_meets_BufWritePastTheEndFaults_inv :
    DecInv (dec .receiving 6 7 1 [(0, 1)]) ∧ (dec .receiving 6 7 1 [(0, 1)]).decState = .receiving :=
  ⟨test_inv_receiving, rfl⟩
theorem test_meets_ChecksumRows :
    (dec .waitCSum 6 9 2 []).decState = .waitCSum ∧ (9 : Byte) = (dec .waitCSum 6 9 2 []).decAcc ∧
      (8 : Byte) ≠ (dec .waitCSum 6 9 2 []).decAcc := by decide
theorem test_meets_RxIsDecoderStep : (dec .receiving 0xFF 0 250 []).decCnt.val ≤ 250 := by decide
theorem test_meets_DecoderIsTotal :
    DecInv { dec .waitCSum 6 9 2 [(0, 1), (1, 2)] with pending := [rxWord 9] } :=
  ⟨by decide, by decide, by decide, fun _ => by decide⟩
theorem test_meets_DecoderIsPositional_regs :
    (dec .receiving 6 7 1 []).decRegs = ({ dec .receiving 6 7 1 [] with err := 0b111 } : State).decRegs := by decide
theorem test_meets_DecoderIsPositional_header :
    (∃ t, exec .dIdleSync1 State.reset = .next t ∧ t.decState = .header2) ∧
      (∃ t, exec .dH2Sync2 (dec .header2 0 0 0 []) = .next t ∧ t.decState = .headerOk) :=
  ⟨⟨_, rfl, rfl⟩, ⟨_, rfl, rfl⟩⟩
theorem test_meets_DecoderIsPositional_back :
    ∃ t, exec (.dWaitMismatch 8) (dec .waitCSum 6 9 2 []) = .next t ∧ t.decState = .idle := ⟨_, rfl, rfl⟩
theorem test_meets_DecoderHasNoTimeout :
    (∀ w ∈ [encStartWord 2, encDataWord 1], wordOp w ≠ .rx ∧ wordOp w ≠ .reset) ∧
      ∃ t, Host.Core.run Sys2Proof.core 3
        { dec .receiving 6 7 1 [(0, 1)] with pending := [encStartWord 2, encDataWord 1] } = .next t ∧ t.faultFree :=
  ⟨by decide, _, rfl, rfl⟩
theorem test_meets_NoHeaderNoFrame :
    (loaded ([0xAA, 0x55, 0x55].map rxWord)).decState = .idle ∧
      (loaded ([0xAA, 0x55, 0x55].map rxWord)).pending = [0xAA, 0x55, 0x55].map rxWord ++ [] ∧
      ∀ pre post : List Byte, [0xAA, 0x55, 0x55] ≠ pre ++ 0x55 :: 0xAA :: post := by
  refine ⟨rfl, rfl, ?_⟩
  intro pre post h
  have hl := congrArg List.length h
  match pre with
  | [] => simp at h
  | [_] => simp at h
  | _ :: _ :: _ => simp only [List.length_append, List.length_cons, List.length_nil] at hl; omega

theorem test_meets_ChecksumMicroOps : 7 < 8 ∧ csgMatch 9 (9 ^^^ BitVec.twoPow 8 7) = false := by decide
theorem test_meets_ChecksumClosedForm : List.Perm [(1 : Byte), 2] [2, 1] := by decide
theorem test_meets_ChecksumDetects :
    ([1, 2] : List Byte)[1] ≠ 3 ∧ (8 : Byte) ≠ csum 6 [1, 2] ∧ List.Perm [(1 : Byte), 2] [2, 1] ∧
      byteSum [0xFF, 1] % 256 = byteSum [0, 0] % 256 := by decide

theorem test_meets_EncStartRows :
    State.reset.encState = .eIdle ∧ 1 ≤ (1 : Byte).toNat ∧ (251 : Byte).toNat ≤ 251 := by decide
theorem test_meets_EncDataRows :
    (enc 2 6).encState = .ePayload ∧ 2 ≤ (enc 2 6).encRem.toNat ∧ (enc 1 7).encRem.toNat = 1 := by decide
theorem test_meets_EncFaultRows :
    (enc 2 6).encState = .ePayload ∧ State.reset.encState = .eIdle ∧ 252 ≤ (252 : Byte).toNat := by decide
theorem test_meets_EncoderSequencing_end :
    (∃ t, exec (.eDataLast 2) (enc 1 7) = .next t ∧ t.encState = .eIdle) ∧
      (∃ t, exec (.reset 0) (enc 2 6) = .next t ∧ t.encState = .eIdle) := ⟨⟨_, rfl, rfl⟩, ⟨_, rfl, rfl⟩⟩
theorem test_meets_EncoderSequencing_short :
    State.reset.encState = .eIdle ∧ 1 ≤ (2 : Byte).toNat ∧ (2 : Byte).toNat ≤ 251 ∧
    (∃ a, applyOps (encStartWord 2 :: [1].map encDataWord) State.reset = .next a ∧ a.faultFree) ∧
    [(1 : Byte)].length < (2 : Byte).toNat :=
  ⟨rfl, by decide, by decide, ⟨_, rfl, rfl⟩, by decide⟩
theorem test_meets_EncoderSequencing_full :
    State.reset.encState = .eIdle ∧ 1 ≤ (1 : Byte).toNat ∧ (1 : Byte).toNat ≤ 251 ∧
    (∃ a, applyOps (encStartWord 1 :: [1].map encDataWord) State.reset = .next a ∧ a.faultFree) ∧
    [(1 : Byte)].length = (1 : Byte).toNat :=
  ⟨rfl, by decide, by decide, ⟨_, rfl, rfl⟩, by decide⟩
theorem test_meets_EncodedFrameShape :
    (List.replicate 251 (0xFF : Byte)).length ≤ 251 ∧ State.reset.encState = .eIdle ∧ 251 < (252 : Byte).toNat := by
  rw [List.length_replicate]
  decide

theorem test_meets_FaultHasNoOtherEffect :
    (∃ t, exec (.eStartBusy 1) (enc 2 6) = .next t ∧ t.out.fault = some .encBusy) ∧
      (∃ t, exec (.eStartRange 252) State.reset = .next t ∧ t.out.fault = some .encLenRange) ∧
      (∃ t, exec (.eDataIdle 1) State.reset = .next t ∧ t.out.fault = some .encIdle) :=
  ⟨⟨_, rfl, rfl⟩, ⟨_, rfl, rfl⟩, ⟨_, rfl, rfl⟩⟩
theorem test_meets_ErrBits :
    (∃ t, exec (.eDataIdle 1) { State.reset with err := 0b010 } = .next t ∧ t.err = 0b110) ∧
      (∃ t, exec (.reset 0) { State.reset with err := 0b111 } = .next t) ∧
      (∃ t, exec (.dIdleOther 0) { State.reset with err := 0b111 } = .next t ∧ t.err = 0b111) :=
  ⟨⟨_, rfl, rfl⟩, ⟨_, rfl⟩, ⟨_, rfl, rfl⟩⟩
theorem test_meets_ErrStaysLogged :
    ErrLogged { State.reset with err := 0b001, faultLog := [.encBusy], pending := [encDataWord 1] } ∧
      ∃ t, step { State.reset with err := 0b001, faultLog := [.encBusy], pending := [encDataWord 1] } = .next t := by
  refine ⟨?_, _, rfl⟩
  intro c
  cases c <;> decide
theorem test_meets_TracesRecordEveryStep : ∃ t, step { enc 1 7 with pending := [encDataWord 2] } = .next t := ⟨_, rfl⟩
theorem test_meets_OutRecordIsExclusive :
    (∃ t, exec (.dWaitMatch 9) (dec .waitCSum 6 9 2 [(0, 1), (1, 2)]) = .next t ∧ t.out.rx = .frame [1, 2]) ∧
      (∃ t, exec (.dWaitMismatch 8) (dec .waitCSum 6 9 2 []) = .next t ∧ t.out.rx = .csumMismatch 9 8) ∧
      (∃ t, exec (.eDataLast 2) (enc 1 7) = .next t ∧ t.out.tx = [2, 9]) :=
  ⟨⟨_, rfl, by decide⟩, ⟨_, rfl, rfl⟩, ⟨_, rfl, by decide⟩⟩
theorem test_meets_FaultAndPortPriority :
    (enc 2 6).encState = .ePayload ∧ (port State.reset []).encReady = true ∧
      ∃ q, (port State.reset []).clock
        { quiet with rxValid := true, rxData := 0x55, encValid := true, encOp := 0, encData := 2 } = .next q ∧
          q.core.faultFree := ⟨rfl, rfl, _, rfl, rfl⟩

theorem test_meets_ResetRow :
    State.reset.decState = .idle ∧ State.reset.encState = .eIdle ∧ State.reset.err = 0b000 ∧
      ({ quiet with rst := true } : PortIn).rst = true ∧ (∃ t, exec (.eDataIdle 1) { State.reset with err := 0b010 } = .next t) :=
  ⟨rfl, rfl, rfl, rfl, _, rfl⟩
theorem test_meets_TwoSourcesOfReset :
    (∃ t, exec (.reset 0x7F) (enc 2 6) = .next t) ∧ (∃ q, (port (enc 2 6) [1]).clock { quiet with rst := true } = .next q) :=
  ⟨⟨_, rfl⟩, ⟨_, rfl⟩⟩

theorem test_meets_RowFrames :
    (∃ t, exec (.dWaitMismatch 8) (dec .waitCSum 6 9 2 []) = .next t) ∧ (∃ t, exec (.eDataLast 2) (enc 1 7) = .next t) :=
  ⟨⟨_, rfl⟩, ⟨_, rfl⟩⟩
theorem test_meets_BufFrame :
    Memory.wf (dec .receiving 6 6 0 [(3, 1)]).buf = true ∧
      (∃ t, exec (.dRecvMore 1) (dec .receiving 6 6 0 [(3, 1)]) = .next t) ∧
      (∃ t, exec (.dRecvLast 1) (dec .receiving 0xFF 6 250 [(3, 1)]) = .next t) ∧
      (∃ t, exec .dIdleSync1 (dec .idle 6 6 0 [(3, 1)]) = .next t) := ⟨by decide, ⟨_, rfl⟩, ⟨_, rfl⟩, ⟨_, rfl⟩⟩
theorem test_meets_UnitsCommute :
    wordOp (encDataWord 2) = .encData ∧ (∃ a, applyOp (rxWord 0x55) (enc 1 7) = .next a ∧ a.faultFree) ∧
      (∃ b, applyOp (encDataWord 2) (enc 1 7) = .next b ∧ b.faultFree) := ⟨by decide, ⟨_, rfl, rfl⟩, ⟨_, rfl, rfl⟩⟩
theorem test_meets_UnitsDoNotReadEachOther_rx :
    State.reset.decRegs = (enc 1 7).decRegs ∧ (∃ s', applyOp (rxWord 0x55) State.reset = .next s' ∧ s'.faultFree) ∧
      (∃ t', applyOp (rxWord 0x55) (enc 1 7) = .next t' ∧ t'.faultFree) := ⟨rfl, ⟨_, rfl, rfl⟩, ⟨_, rfl, rfl⟩⟩
theorem test_meets_UnitsDoNotReadEachOther_enc :
    State.reset.encState = (dec .receiving 6 7 1 []).encState ∧ State.reset.encRem = (dec .receiving 6 7 1 []).encRem ∧
      State.reset.encAcc = (dec .receiving 6 7 1 []).encAcc ∧ State.reset.err = (dec .receiving 6 7 1 []).err ∧
      (∃ s', applyOp (encStartWord 2) State.reset = .next s' ∧ s'.faultFree) ∧
      (∃ t', applyOp (encStartWord 2) (dec .receiving 6 7 1 []) = .next t' ∧ t'.faultFree) :=
  ⟨rfl, rfl, rfl, rfl, ⟨_, rfl, rfl⟩, ⟨_, rfl, rfl⟩⟩

theorem test_meets_DecoderInvariantsKept :
    DecInv { dec .receiving 6 7 1 [(0, 1)] with pending := [rxWord 2] } ∧
      ∃ t, step { dec .receiving 6 7 1 [(0, 1)] with pending := [rxWord 2] } = .next t :=
  ⟨⟨by decide, by decide, by decide, fun _ => by decide⟩, _, rfl⟩
theorem test_meets_EncoderInvariantsKept :
    EncInv { encOpen with pending := [encDataWord 2] } ∧ ∃ t, step { encOpen with pending := [encDataWord 2] } = .next t :=
  ⟨fun _ => ⟨[], 2, [1], by decide, ⟨by decide, by decide, by decide, by decide⟩⟩, _, rfl⟩
theorem test_meets_BufStaysCanonical :
    Memory.wf (dec .receiving 6 7 1 [(0, 1)]).buf = true ∧
      ∃ t, step { dec .receiving 6 7 1 [(0, 1)] with pending := [rxWord 2] } = .next t := ⟨by decide, _, rfl⟩
theorem test_meets_FramesNeverInterleave :
    TxFramed { encOpen with pending := [encDataWord 2] } ∧ wordOp (encDataWord 2) ≠ .reset ∧
      ∃ t, step { encOpen with pending := [encDataWord 2] } = .next t ∧ t.faultFree :=
  ⟨⟨[], [0x55, 0xAA, 6, 1], by decide, by simp, fun h => (by cases h),
    fun _ => ⟨2, [1], by decide, ⟨by decide, by decide, by decide, by decide⟩⟩⟩, by decide, _, rfl, rfl⟩
theorem test_meets_UnspecifiedValuesNeverSeen :
    SameVisible { dec .idle 1 2 3 [(0, 9)] with pending := [rxWord 0x55] }
        { dec .idle 4 5 6 [] with pending := [rxWord 0x55] } ∧
      Memory.wf [(0, 9)] = true ∧
      ∃ s', step { dec .idle 1 2 3 [(0, 9)] with pending := [rxWord 0x55] } = .next s' ∧ s'.faultFree :=
  ⟨⟨⟨rfl, fun h => (by rcases h with h | h <;> cases h)⟩, ⟨rfl, rfl, fun h => (by cases h)⟩, rfl, rfl, rfl, rfl, rfl⟩,
    by decide, _, rfl, rfl⟩

theorem test_meets_StreamEqualsEncode :
    ([1, 2] : List Byte).length ≤ 251 ∧ (loaded []).encState = .eIdle ∧
      (loaded [0x102, 0x201, 0x202]).pending =
        encStartWord (BitVec.ofNat 8 ([1, 2] : List Byte).length) :: (([1, 2] : List Byte).map encDataWord ++ []) := by
  decide
theorem test_meets_RoundTrip :
    ([1, 2] : List Byte).length ≤ 251 ∧ (loaded []).decState = .idle ∧ Memory.wf (loaded []).buf = true ∧
      (loaded [0x055, 0x0AA, 0x006, 0x001, 0x002, 0x009]).pending = (encodeFrame [1, 2]).map rxWord ++ [] := by decide
/-- DEC-8 and DEC-9. -/
theorem test_meets_CorruptFrameRejectedThenResync :
    0 < 8 ∧ (loaded []).decState = .idle ∧ Memory.wf (loaded []).buf = true ∧
    (loaded [0x055, 0x0AA, 0x006, 0x001, 0x002, 0x008, 0x055, 0x0AA, 0x004, 0x004]).pending =
      ((encodeFrame [1, 2]).dropLast ++ [csum (lenByte 2) [1, 2] ^^^ BitVec.twoPow 8 0]).map rxWord ++
        ((encodeFrame []).map rxWord ++ []) := by decide
/-- DEC-2, with no fault in the log. -/
theorem test_meets_DeliveredPayloadWasFramed :
    see (fun s => (s.out.rx, s.faultLog)) (runOps [0x055, 0x0AA, 0x004, 0x004]) = some (.frame [], []) := by decide
/-- Three further bytes, with no fault in the log. -/
theorem test_meets_ReadWindow :
    see (fun s => s.out.rx) (applyOp (rxWord 9) (dec .waitCSum 6 9 2 [(0, 1), (1, 2)])) = some (.frame [1, 2]) ∧
      see (fun s => s.faultLog) (applyOps (rxWord 9 :: [0x055, 0x102, 0x0AA, 0x006])
        (dec .waitCSum 6 9 2 [(0, 1), (1, 2)])) = some [] ∧
      (rxBytesOf [0x055, 0x102, 0x0AA, 0x006]).length ≤ 3 ∧
      (∀ w ∈ [0x055, 0x102, 0x0AA, (0x006 : OpWord)], wordOp w ≠ .reset) := by decide

theorem test_meets_PortsCarryTheTraces :
    PortState.reset.taken ++ PortState.reset.txq = PortState.reset.core.txBytes ∧
      PortState.reset.pulsed ++ PortState.reset.ev.toList = PortState.reset.core.rxEvents ∧
      ∃ q, PortState.reset.clock { quiet with encValid := true, encOp := 0, encData := 2 } = .next q ∧
        q.core.faultFree := ⟨rfl, rfl, _, rfl, rfl⟩
/-- Two bytes of the empty frame are taken, one cycle each, after the cycle that accepts `ENC_START`. -/
theorem test_meets_PortsCarryTheTraces_run :
    (match runPorts [{ quiet with encValid := true }, { quiet with txReady := true }, { quiet with txReady := true }] with
      | .next q => some (q.taken, q.txq, q.core.faultLog)
      | .fault _ => none
      | .refused _ => none) = some ([0x55, 0xAA], [4, 4], []) := by decide
/-- A run from `rst` in the middle of a received frame observes the byte after `rst` alone. -/
theorem test_observation_from_rst :
    (match (port { dec .receiving 6 7 1 [(0, 1)] with txBytes := [0x55], faultLog := [.encIdle] } []).runFromRst quiet
        [{ quiet with rxValid := true, rxData := 0x55 }] with
      | .next q => some (PortState.observationSince
          (port { dec .receiving 6 7 1 [(0, 1)] with txBytes := [0x55], faultLog := [.encIdle] } []) q)
      | .fault _ => none
      | .refused _ => none) =
      some { rx := [], tx := [], faults := [], decState := .header2, encState := .eIdle } := by decide
theorem test_meets_PortsCarryTheTraces_rst :
    ∃ q, (port (dec .receiving 6 7 1 [(0, 1)]) []).runFromRst quiet [{ quiet with rxValid := true, rxData := 0x55 }] =
      .next q ∧ q.core.faultFree := ⟨_, rfl, rfl⟩
/-- The premise of R132 is met by the state after reset, whatever is queued: the claims over a first state. -/
theorem test_meets_faultFree : State.reset.faultFree ∧ ∀ ws, (loaded ws).faultFree := ⟨rfl, fun _ => rfl⟩
theorem test_meets_EventPulse :
    (∃ q, (port (dec .waitCSum 6 9 2 [(0, 1), (1, 2)]) []).clock { quiet with rxValid := true, rxData := 9 } = .next q ∧
      (q.outputs quiet).evValid = true) ∧
    (∃ q, (port (dec .waitCSum 6 9 2 []) []).clock { quiet with rxValid := true, rxData := 8 } = .next q ∧
      (q.outputs quiet).evValid = true) := ⟨⟨_, rfl, by decide⟩, ⟨_, rfl, by decide⟩⟩
theorem test_meets_PortReads : ({ quiet with bufRaddr := 250 } : PortIn).bufRaddr.toNat ≤ 250 := by decide
theorem test_meets_TransmitBackpressure :
    (port State.reset [0x55, 0xAA]).txq = 0x55 :: [0xAA] ∧
      (∃ q, (port State.reset [0x55, 0xAA]).clock { quiet with txReady := true } = .next q) ∧
      (∃ q, (port State.reset [0x55, 0xAA]).clock quiet = .next q) := ⟨rfl, ⟨_, rfl⟩, ⟨_, rfl⟩⟩

theorem test_meets_FaultFreeRunsKeepTheDuties :
    see (fun s => s.faultLog) (runOps [0x101, 0x055, 0x202]) = some [] := by decide
/-- The longest length the host may announce, right after reset. -/
theorem test_meets_FaultFreeRunsKeepTheDuties_kept :
    (∃ t, runOps [encStartWord 251] = .next t) ∧ EncDutiesKept [encStartWord 251] := by
  refine ⟨⟨_, rfl⟩, ?_⟩
  intro before rest w u h hu
  match before with
  | [] =>
    simp only [List.nil_append, List.cons.injEq] at h
    cases h.1
    cases hu
    exact ⟨fun _ => by decide, fun h => by revert h; decide⟩
  | _ :: _ => simp at h
/-- One frame whole and one open, with a received byte between. -/
theorem test_meets_FaultFreeRunsSendWhatWasAsked :
    see (fun s => (s.faultLog, s.txBytes)) (runOps [0x100, 0x055, 0x102]) =
        some ([], [0x55, 0xAA, 4, 4, 0x55, 0xAA, 6]) ∧
      (∀ w ∈ [0x100, 0x055, (0x102 : OpWord)], wordOp w ≠ .reset) := by decide

end Sys2Proof.Tests
end

section
/-! PROOFS. What a row of each unit can change, and the dispatch of a step (O39, O8). -/

namespace Sys2Proof.Machine

/-! ### What a row can change -/

/-- An `RX` row changes the decoder's registers, `BUF`, the record and the events alone (20_memory.md R49). -/
theorem exec_rx_eq {i : Instr} {s t : State} (hop : i.op = .rx) (h : exec i s = .next t) :
    t = { s with
      decState := t.decState
      decLen := t.decLen
      decAcc := t.decAcc
      decCnt := t.decCnt
      buf := t.buf
      out := t.out
      rxEvents := t.rxEvents } := by
  cases i with
  | dIdleSync1 => obtain ⟨-, rfl⟩ := execDIdleSync1_next.mp h; rfl
  | dIdleOther b => obtain ⟨-, rfl⟩ := (execDIdleOther_next (b := b)).mp h; rfl
  | dH2Sync2 => obtain ⟨-, rfl⟩ := execDH2Sync2_next.mp h; rfl
  | dH2Other b => obtain ⟨-, rfl⟩ := (execDH2Other_next (b := b)).mp h; rfl
  | dHokLenPayload b => obtain ⟨-, rfl⟩ := (execDHokLenPayload_next (b := b)).mp h; rfl
  | dHokLenEmpty b => obtain ⟨-, rfl⟩ := (execDHokLenEmpty_next (b := b)).mp h; rfl
  | dRecvMore b => obtain ⟨-, rfl⟩ := (execDRecvMore_next (b := b)).mp h; rfl
  | dRecvLast b => obtain ⟨-, -, rfl⟩ := (execDRecvLast_next (b := b)).mp h; rfl
  | dWaitMatch b => obtain ⟨-, rfl⟩ := (execDWaitMatch_next (b := b)).mp h; rfl
  | dWaitMismatch b => obtain ⟨-, rfl⟩ := (execDWaitMismatch_next (b := b)).mp h; rfl
  | _ => cases hop

/-- An encoder row changes the encoder's registers, `ERR`, the record, the transmit stream and the fault log alone
(20_memory.md R49). -/
theorem exec_enc_eq {i : Instr} {s t : State} (hop : i.op = .encStart ∨ i.op = .encData) (h : exec i s = .next t) :
    t = { s with
      encState := t.encState
      encRem := t.encRem
      encAcc := t.encAcc
      err := t.err
      out := t.out
      txBytes := t.txBytes
      faultLog := t.faultLog } := by
  cases i with
  | eStart n => obtain ⟨-, rfl⟩ := (execEStart_next (n := n)).mp h; rfl
  | eStartEmpty => obtain ⟨-, rfl⟩ := execEStartEmpty_next.mp h; rfl
  | eStartBusy n => obtain ⟨-, rfl⟩ := (execEStartBusy_next (n := n)).mp h; rw [raiseFault_eq]
  | eStartRange n => obtain ⟨-, rfl⟩ := (execEStartRange_next (n := n)).mp h; rw [raiseFault_eq]
  | eDataMore b => obtain ⟨-, rfl⟩ := (execEDataMore_next (b := b)).mp h; rfl
  | eDataLast b => obtain ⟨-, rfl⟩ := (execEDataLast_next (b := b)).mp h; rfl
  | eDataIdle b => obtain ⟨-, rfl⟩ := (execEDataIdle_next (b := b)).mp h; rw [raiseFault_eq]
  | _ => rcases hop with hop | hop <;> cases hop

/-- Only `RESET` draws free values (43_control.md R125). -/
theorem exec_draws {i : Instr} {s t : State} (hop : i.op ≠ .reset) (h : exec i s = .next t) : t.draws = s.draws := by
  cases hi : i.op with
  | rx => rw [exec_rx_eq hi h]
  | encStart => rw [exec_enc_eq (.inl hi) h]
  | encData => rw [exec_enc_eq (.inr hi) h]
  | reset => exact absurd hi hop

/-! ### Selecting a row with other operations queued -/

/-- The queue has no part in the selection of a row (30_encoding.md R69). -/
theorem selectRow_pending (s : State) (x : List OpWord) (w : OpWord) :
    selectRow { s with pending := x } w = selectRow s w := rfl

/-- A word that selects no row is refused with the decoder's reason. -/
theorem applyOp_error {w : OpWord} {s : State} {why : DecodeReject} (h : selectRow s w = .error why) :
    applyOp w s = .refused (.noRow why) := by
  simp only [applyOp, h]

/-! ### The obligations -/

/-- Settles O39: the frame of each unit's rows is read off the one equation that says what such a row can change. -/
theorem rowFrames : Obligations.RowFrames := by
  intro i s t h
  refine ⟨(exec_pending [] h).2, fun hop => exec_draws hop h, fun hop => ?_, fun hop => ?_⟩
  · rw [exec_rx_eq hop h]
    exact ⟨rfl, rfl, rfl, rfl, rfl, rfl⟩
  · rw [exec_enc_eq hop h]
    exact ⟨rfl, rfl, rfl, rfl, rfl, fun _ => rfl⟩

/-- Settles O8: the step applies the head of the queue, and the row is selected as if nothing else were queued. -/
theorem stepRunsTheSelectedRow : Obligations.StepRunsTheSelectedRow := by
  intro s w rest hp
  have hsel : selectRow { s with pending := rest } w = decode s.condRegs (formKey s w) := selectRow_pending s rest w
  rw [step_cons hp]
  exact ⟨fun i hi => applyOp_ok (hsel.trans hi), fun why hw => applyOp_error (hsel.trans hw)⟩

end Sys2Proof.Machine
end

section
/-! PROOFS. What an operation does, said once for each of the four operations. -/

namespace Sys2Proof.Machine

/-! ### `RX` -/

/-- The next state that `decoder_step` gives for a received byte (41_decoder.md R103). -/
def afterRx (b : Byte) (s : State) : State :=
  emitRx (decoderStep s.decRegs b).2 (s.withDecRegs (decoderStep s.decRegs b).1)

@[simp] theorem afterRx_encState (b : Byte) (s : State) : (afterRx b s).encState = s.encState := rfl
@[simp] theorem afterRx_encRem (b : Byte) (s : State) : (afterRx b s).encRem = s.encRem := rfl
@[simp] theorem afterRx_encAcc (b : Byte) (s : State) : (afterRx b s).encAcc = s.encAcc := rfl
@[simp] theorem afterRx_err (b : Byte) (s : State) : (afterRx b s).err = s.err := rfl
@[simp] theorem afterRx_txBytes (b : Byte) (s : State) : (afterRx b s).txBytes = s.txBytes := List.append_nil _
@[simp] theorem afterRx_faultLog (b : Byte) (s : State) : (afterRx b s).faultLog = s.faultLog := List.append_nil _
@[simp] theorem afterRx_pending (b : Byte) (s : State) : (afterRx b s).pending = s.pending := rfl
@[simp] theorem afterRx_out_tx (b : Byte) (s : State) : (afterRx b s).out.tx = [] := rfl
@[simp] theorem afterRx_out_fault (b : Byte) (s : State) : (afterRx b s).out.fault = none := rfl
@[simp] theorem afterRx_rxEvents (b : Byte) (s : State) :
    (afterRx b s).rxEvents = s.rxEvents ++ (afterRx b s).out.rx.toList := rfl

/-- The payload byte stored, summed and counted; the next state tells whether it was the last (R97, R98). -/
def storeByte (b : Byte) (s : State) : State :=
  { s with
    buf := Memory.write s.buf s.decCnt.val b
    decAcc := csgAcc s.decAcc b
    decCnt := cntSucc s.decCnt
    decState := if s.decLen.toNat ≤ s.decCnt.val + 5 then .waitCSum else .receiving }

theorem afterRx_idle {s : State} (b : Byte) (h : s.decState = .idle) :
    afterRx b s = emitNothing { s with decState := if b = Config.sync1 then .header2 else .idle } := by
  simp [afterRx, decoderStep, State.decRegs, State.withDecRegs, h, Out.silent]

theorem afterRx_header2 {s : State} (b : Byte) (h : s.decState = .header2) :
    afterRx b s = emitNothing { s with decState := if b = Config.sync2 then .headerOk else .idle } := by
  simp [afterRx, decoderStep, State.decRegs, State.withDecRegs, h, Out.silent]

theorem afterRx_headerOk {s : State} (b : Byte) (h : s.decState = .headerOk) :
    afterRx b s = emitNothing (acceptLength b (if b.toNat ≤ 4 then .waitCSum else .receiving) s) := by
  simp [afterRx, decoderStep, State.decRegs, State.withDecRegs, h, acceptLength, Out.silent]

theorem afterRx_receiving {s : State} (b : Byte) (h : s.decState = .receiving) :
    afterRx b s = emitNothing (storeByte b s) := by
  simp [afterRx, storeByte, decoderStep, State.decRegs, State.withDecRegs, h, csgAcc, Out.silent]

theorem afterRx_waitCSum {s : State} (b : Byte) (h : s.decState = .waitCSum) :
    afterRx b s = emitRx (if b = s.decAcc then .frame s.payload else .csumMismatch s.decAcc b)
      { s with decState := .idle } := by
  simp [afterRx, decoderStep, State.decRegs, State.withDecRegs, h, State.payload]

/-- The event of a received byte: one exactly in `WaitCSum` (41_decoder.md R99, R100). -/
theorem afterRx_out_rx (b : Byte) (s : State) : (afterRx b s).out.rx =
    if s.decState = .waitCSum then (if b = s.decAcc then .frame s.payload else .csumMismatch s.decAcc b)
    else .none := by
  cases h : s.decState with
  | idle => simp [afterRx_idle b h]
  | header2 => simp [afterRx_header2 b h]
  | headerOk => simp [afterRx_headerOk b h]
  | receiving => simp [afterRx_receiving b h]
  | waitCSum => simp [afterRx_waitCSum b h]

/-- `RX(b)` is `decoder_step` wherever its `BufWrite` names an entry of `BUF`. -/
theorem applyOp_rxWord {s : State} (b : Byte) (hc : s.decState = .receiving → s.decCnt.val < 251) :
    applyOp (rxWord b) s = .next (afterRx b s) := by
  rw [applyOp_ok (selectRow_rxWord s b)]
  cases h : s.decState with
  | idle =>
    rw [afterRx_idle b h, decodeRx]
    split
    · exact execDIdleSync1_next.mpr ⟨h, emitNothing_eq _⟩
    · next hb => exact execDIdleOther_next.mpr ⟨⟨h, hb⟩, by rw [emitNothing_eq, ← h]⟩
  | header2 =>
    rw [afterRx_header2 b h, decodeRx]
    split
    · exact execDH2Sync2_next.mpr ⟨h, emitNothing_eq _⟩
    · next hb => exact execDH2Other_next.mpr ⟨⟨h, hb⟩, emitNothing_eq _⟩
  | headerOk =>
    rw [afterRx_headerOk b h, decodeRx]
    split
    · next hb =>
      rw [if_neg (by omega)]
      exact execDHokLenPayload_next.mpr ⟨⟨h, hb⟩, emitNothing_eq _⟩
    · next hb =>
      have hb : b.toNat ≤ 4 := by omega
      rw [if_pos hb]
      exact execDHokLenEmpty_next.mpr ⟨⟨h, hb⟩, emitNothing_eq _⟩
  | receiving =>
    rw [afterRx_receiving b h, storeByte, decodeRx]
    split
    · next hm =>
      have hm : s.decCnt.val + 5 < s.decLen.toNat := morePayload_iff.mp hm
      rw [if_neg (by omega)]
      exact execDRecvMore_next.mpr ⟨⟨h, hm⟩, emitNothing_eq _⟩
    · next hm =>
      have hm : s.decLen.toNat ≤ s.decCnt.val + 5 := morePayload_false_iff.mp (Bool.eq_false_of_not_eq_true hm)
      rw [if_pos hm]
      exact execDRecvLast_next.mpr ⟨⟨h, hm⟩, hc h, emitNothing_eq _⟩
  | waitCSum =>
    rw [afterRx_waitCSum b h, decodeRx]
    split
    · next hb => exact execDWaitMatch_next.mpr ⟨⟨h, hb.symm⟩, emitRx_eq _ _⟩
    · next hb => exact execDWaitMismatch_next.mpr ⟨⟨h, Ne.symm hb⟩, emitRx_eq _ _⟩

/-- Past the end of `BUF` a received byte stops the model (log entry 7). -/
theorem applyOp_rxWord_past_end {s : State} (b : Byte) (h : s.decState = .receiving) (hc : s.decCnt.val = 251) :
    applyOp (rxWord b) s = .fault (.bufIndex 251) := by
  have hlast : s.condRegs.morePayload = false := morePayload_false_iff.mpr (by rw [condRegs_decCnt]; omega)
  rw [applyOp_ok (selectRow_rxWord s b), h, decodeRx, if_neg (by simp [hlast])]
  exact (onlyWhen_pos ⟨h, by omega⟩).trans (receiveByte_fault hc)

/-- Where `RX(b)` answers a next state, and which. -/
theorem applyOp_rxWord_next {b : Byte} {s t : State} :
    applyOp (rxWord b) s = .next t ↔ (s.decState = .receiving → s.decCnt.val < 251) ∧ t = afterRx b s := by
  by_cases hc : s.decState = .receiving → s.decCnt.val < 251
  · rw [applyOp_rxWord b hc, next_inj]
    exact (and_iff_right hc).symm
  · obtain ⟨hst, hcnt⟩ := Classical.not_imp.mp hc
    rw [applyOp_rxWord_past_end b hst (by omega)]
    exact ⟨fun h => (by cases h), fun h => absurd h.1 hc⟩

/-! ### `ENC_START` -/

/-- The state after an encoder row that sends `bytes` and leaves these values in the encoder's registers. -/
def sendFrom (bytes : List Byte) (e : EncState) (rem acc : Byte) (s : State) : State :=
  emitTx bytes { s with encState := e, encRem := rem, encAcc := acc }

section
variable (bs : List Byte) (e : EncState) (r a : Byte) (s : State)

@[simp] theorem sendFrom_decState : (sendFrom bs e r a s).decState = s.decState := rfl
@[simp] theorem sendFrom_decLen : (sendFrom bs e r a s).decLen = s.decLen := rfl
@[simp] theorem sendFrom_decAcc : (sendFrom bs e r a s).decAcc = s.decAcc := rfl
@[simp] theorem sendFrom_decCnt : (sendFrom bs e r a s).decCnt = s.decCnt := rfl
@[simp] theorem sendFrom_buf : (sendFrom bs e r a s).buf = s.buf := rfl
@[simp] theorem sendFrom_err : (sendFrom bs e r a s).err = s.err := rfl
@[simp] theorem sendFrom_pending : (sendFrom bs e r a s).pending = s.pending := rfl
@[simp] theorem sendFrom_draws : (sendFrom bs e r a s).draws = s.draws := rfl
@[simp] theorem sendFrom_encState : (sendFrom bs e r a s).encState = e := rfl
@[simp] theorem sendFrom_encRem : (sendFrom bs e r a s).encRem = r := rfl
@[simp] theorem sendFrom_encAcc : (sendFrom bs e r a s).encAcc = a := rfl
@[simp] theorem sendFrom_out : (sendFrom bs e r a s).out = { rx := .none, tx := bs, fault := none } := rfl
@[simp] theorem sendFrom_rxEvents : (sendFrom bs e r a s).rxEvents = s.rxEvents := List.append_nil _
@[simp] theorem sendFrom_faultLog : (sendFrom bs e r a s).faultLog = s.faultLog := List.append_nil _
@[simp] theorem sendFrom_txBytes : (sendFrom bs e r a s).txBytes = s.txBytes ++ bs := rfl

end

theorem ne_zero_of_toNat_pos {n : Byte} (h : 1 ≤ n.toNat) : n ≠ 0 := by
  rintro rfl
  exact absurd h (by decide)

theorem selectRow_encStart_busy {s : State} (n : Byte) (h : s.encState = .ePayload) :
    selectRow s (encStartWord n) = .ok (.eStartBusy n) := by
  rw [selectRow_encStartWord, h, decodeEncStart]

theorem selectRow_encStart_range {s : State} {n : Byte} (h : s.encState = .eIdle) (hn : 251 < n.toNat) :
    selectRow s (encStartWord n) = .ok (.eStartRange n) := by
  rw [selectRow_encStartWord, h, decodeEncStart, if_neg (ne_zero_of_toNat_pos (by omega)),
    if_neg (Nat.not_le_of_lt hn)]

theorem selectRow_encStart_empty {s : State} (h : s.encState = .eIdle) :
    selectRow s (encStartWord 0) = .ok .eStartEmpty := by
  rw [selectRow_encStartWord, h, decodeEncStart, if_pos rfl]

theorem selectRow_encStart_open {s : State} {n : Byte} (h : s.encState = .eIdle) (h1 : 1 ≤ n.toNat)
    (h2 : n.toNat ≤ 251) : selectRow s (encStartWord n) = .ok (.eStart n) := by
  rw [selectRow_encStartWord, h, decodeEncStart, if_neg (ne_zero_of_toNat_pos h1), if_pos h2]

theorem applyOp_encStart_busy {s : State} (n : Byte) (h : s.encState = .ePayload) :
    applyOp (encStartWord n) s = .next (raiseFault .encBusy s) := by
  rw [applyOp_ok (selectRow_encStart_busy n h)]
  exact (execEStartBusy_next (n := n)).mpr ⟨h, rfl⟩

theorem applyOp_encStart_range {s : State} {n : Byte} (h : s.encState = .eIdle) (hn : 251 < n.toNat) :
    applyOp (encStartWord n) s = .next (raiseFault .encLenRange s) := by
  rw [applyOp_ok (selectRow_encStart_range h hn)]
  exact execEStartRange_next.mpr ⟨⟨h, hn⟩, rfl⟩

theorem applyOp_encStart_empty {s : State} (h : s.encState = .eIdle) :
    applyOp (encStartWord 0) s = .next (sendFrom [0x55, 0xAA, 4, 4] .eIdle 0 4 s) := by
  rw [applyOp_ok (selectRow_encStart_empty h)]
  exact execEStartEmpty_next.mpr ⟨h, by rw [sendFrom, emitTx_eq, ← h]⟩

theorem applyOp_encStart_open {s : State} {n : Byte} (h : s.encState = .eIdle) (h1 : 1 ≤ n.toNat)
    (h2 : n.toNat ≤ 251) : applyOp (encStartWord n) s =
      .next (sendFrom (frameHead n.toNat) .ePayload n (lenByte n.toNat) s) := by
  rw [applyOp_ok (selectRow_encStart_open h h1 h2)]
  exact execEStart_next.mpr ⟨⟨h, h1, h2⟩, emitTx_eq _ _⟩

/-- `ENC_START(n)` answers a next state in every state, by one of its four rows (R111 to R114). -/
theorem applyOp_encStart_runs (n : Byte) (s : State) : ∃ t, applyOp (encStartWord n) s = .next t ∧
    ((s.encState = .ePayload ∧ t = raiseFault .encBusy s) ∨
    (s.encState = .eIdle ∧ 251 < n.toNat ∧ t = raiseFault .encLenRange s) ∨
    (s.encState = .eIdle ∧ n = 0 ∧ t = sendFrom [0x55, 0xAA, 4, 4] .eIdle 0 4 s) ∨
    (s.encState = .eIdle ∧ 1 ≤ n.toNat ∧ n.toNat ≤ 251 ∧
      t = sendFrom (frameHead n.toNat) .ePayload n (lenByte n.toNat) s)) := by
  cases he : s.encState with
  | ePayload => exact ⟨_, applyOp_encStart_busy n he, .inl ⟨rfl, rfl⟩⟩
  | eIdle =>
    by_cases h0 : n = 0
    · subst h0
      exact ⟨_, applyOp_encStart_empty he, .inr (.inr (.inl ⟨rfl, rfl, rfl⟩))⟩
    have h1 : n.toNat ≠ 0 := fun hn => h0 (BitVec.eq_of_toNat_eq hn)
    by_cases h2 : 251 < n.toNat
    · exact ⟨_, applyOp_encStart_range he h2, .inr (.inl ⟨rfl, h2, rfl⟩)⟩
    · have h1 : 1 ≤ n.toNat := by omega
      have h2 : n.toNat ≤ 251 := by omega
      exact ⟨_, applyOp_encStart_open he h1 h2, .inr (.inr (.inr ⟨rfl, h1, h2, rfl⟩))⟩

/-- Everything `ENC_START(n)` can do. -/
theorem applyOp_encStart_cases {n : Byte} {s t : State} (h : applyOp (encStartWord n) s = .next t) :
    (s.encState = .ePayload ∧ t = raiseFault .encBusy s) ∨
    (s.encState = .eIdle ∧ 251 < n.toNat ∧ t = raiseFault .encLenRange s) ∨
    (s.encState = .eIdle ∧ n = 0 ∧ t = sendFrom [0x55, 0xAA, 4, 4] .eIdle 0 4 s) ∨
    (s.encState = .eIdle ∧ 1 ≤ n.toNat ∧ n.toNat ≤ 251 ∧
      t = sendFrom (frameHead n.toNat) .ePayload n (lenByte n.toNat) s) := by
  obtain ⟨u, hu, hcases⟩ := applyOp_encStart_runs n s
  rwa [next_inj.mp (hu.symm.trans h)]

/-! ### `ENC_DATA` -/

theorem selectRow_encData_idle {s : State} (b : Byte) (h : s.encState = .eIdle) :
    selectRow s (encDataWord b) = .ok (.eDataIdle b) := by
  rw [selectRow_encDataWord, h, decodeEncData]

theorem selectRow_encData_more {s : State} (b : Byte) (h : s.encState = .ePayload) (hr : 2 ≤ s.encRem.toNat) :
    selectRow s (encDataWord b) = .ok (.eDataMore b) := by
  rw [selectRow_encDataWord, h, decodeEncData, if_pos hr]

theorem selectRow_encData_last {s : State} (b : Byte) (h : s.encState = .ePayload) (hr : s.encRem = 1) :
    selectRow s (encDataWord b) = .ok (.eDataLast b) := by
  rw [selectRow_encDataWord, h, decodeEncData, condRegs_encRem, hr]
  rfl

theorem applyOp_encData_idle {s : State} (b : Byte) (h : s.encState = .eIdle) :
    applyOp (encDataWord b) s = .next (raiseFault .encIdle s) := by
  rw [applyOp_ok (selectRow_encData_idle b h)]
  exact (execEDataIdle_next (b := b)).mpr ⟨h, rfl⟩

theorem applyOp_encData_more {s : State} (b : Byte) (h : s.encState = .ePayload) (hr : 2 ≤ s.encRem.toNat) :
    applyOp (encDataWord b) s = .next (sendFrom [b] .ePayload (s.encRem - 1) (csgAcc s.encAcc b) s) := by
  rw [applyOp_ok (selectRow_encData_more b h hr)]
  exact execEDataMore_next.mpr ⟨⟨h, hr⟩, by rw [sendFrom, emitTx_eq, ← h]⟩

theorem applyOp_encData_last {s : State} (b : Byte) (h : s.encState = .ePayload) (hr : s.encRem = 1) :
    applyOp (encDataWord b) s = .next (sendFrom [b, csgAcc s.encAcc b] .eIdle 0 (csgAcc s.encAcc b) s) := by
  rw [applyOp_ok (selectRow_encData_last b h hr)]
  exact execEDataLast_next.mpr ⟨⟨h, hr⟩, emitTx_eq _ _⟩

/-- With no payload byte expected the operation selects no row (log entry 8). -/
theorem applyOp_encData_none {s : State} (b : Byte) (h : s.encState = .ePayload) (hr : s.encRem.toNat = 0) :
    applyOp (encDataWord b) s = .refused (.noRow .noPayloadExpected) := by
  have hz : s.encRem = 0 := BitVec.eq_of_toNat_eq hr
  apply applyOp_error
  rw [selectRow_encDataWord, h, decodeEncData, condRegs_encRem, hz]
  rfl

/-- Everything `ENC_DATA(b)` can do (R115 to R117). -/
theorem applyOp_encData_cases {b : Byte} {s t : State} (h : applyOp (encDataWord b) s = .next t) :
    (s.encState = .eIdle ∧ t = raiseFault .encIdle s) ∨
    (s.encState = .ePayload ∧ 2 ≤ s.encRem.toNat ∧ t = sendFrom [b] .ePayload (s.encRem - 1) (csgAcc s.encAcc b) s) ∨
    (s.encState = .ePayload ∧ s.encRem = 1 ∧ t = sendFrom [b, csgAcc s.encAcc b] .eIdle 0 (csgAcc s.encAcc b) s) := by
  cases he : s.encState with
  | eIdle => exact .inl ⟨rfl, next_inj.mp ((applyOp_encData_idle b he).symm.trans h)⟩
  | ePayload =>
    rcases Nat.lt_trichotomy s.encRem.toNat 1 with h0 | h1 | h2
    · rw [applyOp_encData_none b he (by omega)] at h
      cases h
    · have h1 : s.encRem = 1 := BitVec.eq_of_toNat_eq h1
      exact .inr (.inr ⟨rfl, h1, next_inj.mp ((applyOp_encData_last b he h1).symm.trans h)⟩)
    · exact .inr (.inl ⟨rfl, h2, next_inj.mp ((applyOp_encData_more b he h2).symm.trans h)⟩)

/-- `ENC_DATA` answers a next state where an open frame still expects a byte. -/
theorem applyOp_encData_runs {s : State} (b : Byte) (hr : s.encState = .ePayload → 1 ≤ s.encRem.toNat) :
    ∃ t, applyOp (encDataWord b) s = .next t := by
  cases he : s.encState with
  | eIdle => exact ⟨_, applyOp_encData_idle b he⟩
  | ePayload =>
    by_cases h1 : s.encRem = 1
    · exact ⟨_, applyOp_encData_last b he h1⟩
    · have hne : s.encRem.toNat ≠ 1 := fun hn => h1 (BitVec.eq_of_toNat_eq hn)
      have hpos := hr he
      exact ⟨_, applyOp_encData_more b he (by omega)⟩

/-! ### `RESET` -/

theorem applyOp_reset (d : Byte) (s : State) : applyOp (opWord .reset d) s = .next (emitNothing (resetRegisters s)) :=
  applyOp_ok (selectRow_reset s d)

/-! ### Any operation -/

/-- Everything an operation can do: `RX` takes its `decoder_step`; an encoder operation sends bytes or raises a fault;
`RESET` resets. -/
theorem applyOp_cases {w : OpWord} {s t : State} (h : applyOp w s = .next t) :
    (∃ b, w = rxWord b ∧ t = afterRx b s) ∨
    ((wordOp w = .encStart ∨ wordOp w = .encData) ∧
      ((∃ c, t = raiseFault c s) ∨ ∃ bytes e rem acc, t = sendFrom bytes e rem acc s)) ∨
    (wordOp w = .reset ∧ t = emitNothing (resetRegisters s)) := by
  rcases opWord_cases w with ⟨b, rfl⟩ | ⟨n, rfl⟩ | ⟨b, rfl⟩ | ⟨d, rfl⟩
  · exact .inl ⟨b, rfl, (applyOp_rxWord_next.mp h).2⟩
  · refine .inr (.inl ⟨.inl (wordOp_encStartWord n), ?_⟩)
    rcases applyOp_encStart_cases h with ⟨-, rfl⟩ | ⟨-, -, rfl⟩ | ⟨-, -, rfl⟩ | ⟨-, -, -, rfl⟩
    · exact .inl ⟨_, rfl⟩
    · exact .inl ⟨_, rfl⟩
    · exact .inr ⟨_, _, _, _, rfl⟩
    · exact .inr ⟨_, _, _, _, rfl⟩
  · refine .inr (.inl ⟨.inr (wordOp_encDataWord b), ?_⟩)
    rcases applyOp_encData_cases h with ⟨-, rfl⟩ | ⟨-, -, rfl⟩ | ⟨-, -, rfl⟩
    · exact .inl ⟨_, rfl⟩
    · exact .inr ⟨_, _, _, _, rfl⟩
    · exact .inr ⟨_, _, _, _, rfl⟩
  · exact .inr (.inr ⟨wordOp_opWord _ _, next_inj.mp ((applyOp_reset d s).symm.trans h)⟩)

theorem applyOp_reset_next {w : OpWord} {s t : State} (hop : wordOp w = .reset) (h : applyOp w s = .next t) :
    t = emitNothing (resetRegisters s) := by
  rcases applyOp_cases h with ⟨b, rfl, -⟩ | ⟨hw, -⟩ | ⟨-, ht⟩
  · rw [wordOp_rxWord] at hop
    cases hop
  · rw [hop] at hw
    rcases hw with hw | hw <;> cases hw
  · exact ht

/-! ### Rows and operations -/

/-- An `RX` row that answers a next state is the row of the decoder's state and its byte (30_encoding.md R70). -/
theorem decodeRx_of_exec {i : Instr} {s t : State} (hop : i.op = .rx) (h : exec i s = .next t) :
    decodeRx s.condRegs s.decState i.data = i := by
  cases i with
  | dIdleSync1 =>
    obtain ⟨hst, -⟩ := execDIdleSync1_next.mp h
    rw [hst]
    rfl
  | dIdleOther b =>
    obtain ⟨⟨hst, hb⟩, -⟩ := execDIdleOther_next.mp h
    rw [hst]
    exact if_neg hb
  | dH2Sync2 =>
    obtain ⟨hst, -⟩ := execDH2Sync2_next.mp h
    rw [hst]
    rfl
  | dH2Other b =>
    obtain ⟨⟨hst, hb⟩, -⟩ := execDH2Other_next.mp h
    rw [hst]
    exact if_neg hb
  | dHokLenPayload b =>
    obtain ⟨⟨hst, hb⟩, -⟩ := execDHokLenPayload_next.mp h
    rw [hst]
    exact if_pos hb
  | dHokLenEmpty b =>
    obtain ⟨⟨hst, hb⟩, -⟩ := execDHokLenEmpty_next.mp h
    rw [hst]
    exact if_neg (Nat.not_le_of_lt (Nat.lt_succ_of_le hb))
  | dRecvMore b =>
    obtain ⟨⟨hst, hm⟩, -⟩ := (execDRecvMore_next (b := b)).mp h
    rw [hst]
    exact if_pos (morePayload_iff.mpr hm)
  | dRecvLast b =>
    obtain ⟨⟨hst, hm⟩, -⟩ := (execDRecvLast_next (b := b)).mp h
    rw [hst]
    exact if_neg (fun hmore => Nat.not_lt_of_le hm (morePayload_iff.mp hmore))
  | dWaitMatch b =>
    obtain ⟨⟨hst, hb⟩, -⟩ := execDWaitMatch_next.mp h
    rw [hst]
    exact if_pos hb.symm
  | dWaitMismatch b =>
    obtain ⟨⟨hst, hb⟩, -⟩ := execDWaitMismatch_next.mp h
    rw [hst]
    exact if_neg (Ne.symm hb)
  | _ => cases hop

/-- A row that answers a next state is the row its own word selects (R69). -/
theorem selectRow_of_exec {i : Instr} {s t : State} (h : exec i s = .next t) : selectRow s (encodeWord i) = .ok i := by
  cases i with
  | eStart n =>
    obtain ⟨⟨he, h1, h2⟩, -⟩ := execEStart_next.mp h
    exact selectRow_encStart_open he h1 h2
  | eStartEmpty =>
    obtain ⟨he, -⟩ := execEStartEmpty_next.mp h
    exact selectRow_encStart_empty he
  | eStartBusy n =>
    obtain ⟨he, -⟩ := (execEStartBusy_next (n := n)).mp h
    exact selectRow_encStart_busy n he
  | eStartRange n =>
    obtain ⟨⟨he, hn⟩, -⟩ := execEStartRange_next.mp h
    exact selectRow_encStart_range he hn
  | eDataMore b =>
    obtain ⟨⟨he, hr⟩, -⟩ := execEDataMore_next.mp h
    exact selectRow_encData_more b he hr
  | eDataLast b =>
    obtain ⟨⟨he, hr⟩, -⟩ := execEDataLast_next.mp h
    exact selectRow_encData_last b he hr
  | eDataIdle b =>
    obtain ⟨he, -⟩ := (execEDataIdle_next (b := b)).mp h
    exact selectRow_encData_idle b he
  | reset d => exact selectRow_reset s d
  | _ => exact (selectRow_opWord_rx s _).trans (congrArg Except.ok (decodeRx_of_exec rfl h))

/-- A row's meaning is what its word does, so what holds of every operation holds of every row. -/
theorem applyOp_encodeWord {i : Instr} {s t : State} (h : exec i s = .next t) :
    applyOp (encodeWord i) s = .next t := (applyOp_ok (selectRow_of_exec h)).trans h

@[simp] theorem wordOp_encodeWord (i : Instr) : wordOp (encodeWord i) = i.op := wordOp_opWord _ _
@[simp] theorem wordData_encodeWord (i : Instr) : wordData (encodeWord i) = i.data := wordData_opWord _ _

end Sys2Proof.Machine
end

section
/-! PROOFS. What every operation keeps: the traces, the invariants of both units, and the log of `ERR`
(O43, O44, O45, O33). -/

namespace Sys2Proof.Machine

/-! ### From operations to steps -/

/-- Everything a step can do: nothing, with no operation queued, or the next operation. -/
theorem step_op_cases {s t : State} (h : step s = .next t) :
    (s.pending = [] ∧ t = { s with out := Out.silent }) ∨
    ∃ w rest, s.pending = w :: rest ∧ applyOp w { s with pending := rest } = .next t := by
  rcases step_next_cases h with hidle | ⟨w, rest, i, hp, hi, he⟩
  · exact .inl hidle
  · exact .inr ⟨w, rest, hp, applyOp_next.mpr ⟨i, hi, he⟩⟩

/-- What every operation keeps and neither the queue nor the record has a part in, every step keeps. -/
theorem step_keeps {P : State → Prop} (hpending : ∀ s x, P s → P { s with pending := x })
    (hout : ∀ s, P s → P { s with out := Out.silent }) (hop : ∀ w s t, P s → applyOp w s = .next t → P t)
    {s t : State} (hs : P s) (h : step s = .next t) : P t := by
  rcases step_op_cases h with ⟨-, rfl⟩ | ⟨w, rest, -, hw⟩
  · exact hout s hs
  · exact hop w _ t (hpending s rest hs) hw

/-- What every operation keeps, a list of operations keeps. -/
theorem applyOps_keeps {P : State → Prop} (hop : ∀ w s t, P s → applyOp w s = .next t → P t) {ws : List OpWord}
    {s t : State} (hs : P s) (h : applyOps ws s = .next t) : P t := by
  induction ws generalizing s with
  | nil =>
    cases h
    exact hs
  | cons w ws ih =>
    obtain ⟨u, hu, ht⟩ := applyOps_cons_next.mp h
    exact ih (hop w s u hs hu) ht

/-! ### The traces -/

/-- The traces grow by the operation's record (70_reset_and_hazards.md R150). -/
theorem applyOp_traces {w : OpWord} {s t : State} (h : applyOp w s = .next t) :
    t.rxEvents = s.rxEvents ++ t.out.rx.toList ∧ t.txBytes = s.txBytes ++ t.out.tx ∧
      t.faultLog = s.faultLog ++ t.out.fault.toList := by
  rcases applyOp_cases h with ⟨b, -, rfl⟩ | ⟨-, ⟨c, rfl⟩ | ⟨bs, e, r, a, rfl⟩⟩ | ⟨-, rfl⟩ <;> simp

/-- Over a list of operations the stream only grows. -/
theorem applyOps_txBytes {ws : List OpWord} {s t : State} (h : applyOps ws s = .next t) :
    ∃ bs, t.txBytes = s.txBytes ++ bs := by
  refine applyOps_keeps (P := fun u => ∃ bs, u.txBytes = s.txBytes ++ bs) ?_ ⟨[], (List.append_nil _).symm⟩ h
  rintro w u v ⟨bs, hu⟩ hv
  exact ⟨bs ++ v.out.tx, by rw [(applyOp_traces hv).2.1, hu, List.append_assoc]⟩

/-! ### The decoder's invariants (10_state.md R26) -/

/-- The invariants speak of the decoder's registers alone. -/
theorem DecInv.of_decRegs {s t : State} (hs : DecInv s) (h : t.decRegs = s.decRegs) : DecInv t := by
  rw [State.decRegs, State.decRegs, DecRegs.mk.injEq] at h
  obtain ⟨hst, hlen, hacc, hcnt, hbuf⟩ := h
  refine ⟨?_, ?_, ?_, ?_⟩
  · rw [hbuf]; exact hs.bufWf
  · rw [hst, hcnt, hlen]; exact hs.receiving
  · rw [hst, hcnt, hlen]; exact hs.waiting
  · rw [hst, hacc, hlen, State.payload, hbuf, hcnt]; exact hs.sum

/-- Outside a frame the invariants ask for the canonical `BUF` alone. -/
theorem decInv_outside_frame {s : State} (hwf : Memory.wf s.buf = true) (hr : s.decState ≠ .receiving)
    (hw : s.decState ≠ .waitCSum) : DecInv s :=
  ⟨hwf, fun h => absurd h hr, fun h => absurd h hw, fun h => h.elim (fun h => absurd h hr) (fun h => absurd h hw)⟩

/-- Item 1 keeps `DEC_CNT` at an index of `BUF`. -/
theorem DecInv.cnt_lt {s : State} (hs : DecInv s) (h : s.decState = .receiving) : s.decCnt.val < 251 := by
  have h1 := hs.receiving h
  omega

/-- A length byte of 5 or more starts a frame with the invariants. -/
theorem decInv_acceptLength_receiving {s : State} {b : Byte} (hwf : Memory.wf s.buf = true) (hb : ¬ b.toNat ≤ 4) :
    DecInv (acceptLength b .receiving s) :=
  ⟨hwf, fun _ => (by simpa using hb), fun h => (by cases h), fun _ => (csum_nil b).symm⟩

/-- A length byte of 4 or less has no payload to wait for. -/
theorem decInv_acceptLength_waitCSum {s : State} {b : Byte} (hwf : Memory.wf s.buf = true) (hb : b.toNat ≤ 4) :
    DecInv (acceptLength b .waitCSum s) :=
  ⟨hwf, fun h => (by cases h), fun _ => (by simp; omega), fun _ => (csum_nil b).symm⟩

/-- A payload byte is stored and summed, and the next state is the last payload byte's or not. -/
theorem DecInv.storeByte {s : State} (hs : DecInv s) (b : Byte) (h : s.decState = .receiving) :
    DecInv (storeByte b s) := by
  have hcnt := hs.cnt_lt h
  have hlen := hs.receiving h
  have hsucc := cntSucc_val hcnt
  refine ⟨Memory.wf_write hs.bufWf hcnt, fun hr => ?_, fun hw => ?_, fun _ => ?_⟩
  · have hmore : ¬ s.decLen.toNat ≤ s.decCnt.val + 5 := fun hle => by simp [Machine.storeByte, hle] at hr
    simp only [Machine.storeByte, hsucc]
    omega
  · have hlast : s.decLen.toNat ≤ s.decCnt.val + 5 :=
      Classical.byContradiction fun hgt => by simp [Machine.storeByte, hgt] at hw
    simp only [Machine.storeByte, hsucc]
    omega
  · simp only [State.payload, Machine.storeByte, hsucc]
    rw [Memory.slice_write hs.bufWf, csum_snoc]
    exact congrArg (csgAcc · b) (hs.sum (.inl h))

theorem DecInv.afterRx {s : State} (hs : DecInv s) (b : Byte) : DecInv (afterRx b s) := by
  cases h : s.decState with
  | idle =>
    rw [afterRx_idle b h]
    split
    · exact decInv_outside_frame hs.bufWf (by simp) (by simp)
    · exact decInv_outside_frame hs.bufWf (by simp) (by simp)
  | header2 =>
    rw [afterRx_header2 b h]
    split
    · exact decInv_outside_frame hs.bufWf (by simp) (by simp)
    · exact decInv_outside_frame hs.bufWf (by simp) (by simp)
  | headerOk =>
    rw [afterRx_headerOk b h]
    split
    · next hb => exact (decInv_acceptLength_waitCSum hs.bufWf hb).of_decRegs rfl
    · next hb => exact (decInv_acceptLength_receiving hs.bufWf hb).of_decRegs rfl
  | receiving =>
    rw [afterRx_receiving b h]
    exact (hs.storeByte b h).of_decRegs rfl
  | waitCSum =>
    rw [afterRx_waitCSum b h]
    exact decInv_outside_frame hs.bufWf (by simp) (by simp)

theorem decInv_reset (s : State) : DecInv (emitNothing (resetRegisters s)) :=
  decInv_outside_frame (freeBuffer_wf _) (by simp) (by simp)

/-- Every operation keeps the decoder's invariants: those of the encoder leave its registers alone. -/
theorem applyOp_decInv (w : OpWord) (s t : State) (hs : DecInv s) (h : applyOp w s = .next t) : DecInv t := by
  rcases applyOp_cases h with ⟨b, -, rfl⟩ | ⟨-, ⟨c, rfl⟩ | ⟨bs, e, r, a, rfl⟩⟩ | ⟨-, rfl⟩
  · exact hs.afterRx b
  · exact hs.of_decRegs rfl
  · exact hs.of_decRegs rfl
  · exact decInv_reset s

/-- Settles O43, by the five cases of `decoder_step`; the encoder's operations leave the decoder's registers alone. -/
theorem decoderInvariantsKept : Obligations.DecoderInvariantsKept := by
  intro s t hs h
  exact step_keeps (fun s x hs => hs.of_decRegs rfl) (fun s hs => hs.of_decRegs rfl) applyOp_decInv hs h

/-! ### The encoder's invariants (10_state.md R29) -/

/-- The invariants speak of the encoder's registers and the transmit stream alone. -/
theorem EncInv.of_eq {s t : State} (hs : EncInv s) (he : t.encState = s.encState) (hr : t.encRem = s.encRem)
    (ha : t.encAcc = s.encAcc) (htx : t.txBytes = s.txBytes) : EncInv t := by
  intro hp
  obtain ⟨sent, n, d, hsent, hopen⟩ := hs (he ▸ hp)
  exact ⟨sent, n, d, htx.trans hsent, hopen.length_le, hr ▸ hopen.rem_pos, hr ▸ hopen.rem_eq, ha.trans hopen.acc_eq⟩

/-- With no frame open the invariants ask nothing. -/
theorem encInv_eIdle {s : State} (h : s.encState = .eIdle) : EncInv s := fun hp => by
  rw [h] at hp
  cases hp

/-- An open frame still expects a byte. -/
theorem EncInv.rem_pos {s : State} (hs : EncInv s) (h : s.encState = .ePayload) : 1 ≤ s.encRem.toNat := by
  obtain ⟨_, _, _, _, hopen⟩ := hs h
  exact hopen.rem_pos

/-- A frame just opened has the invariants, with no payload byte accepted. -/
theorem encInv_open (s : State) {n : Byte} (h1 : 1 ≤ n.toNat) (h2 : n.toNat ≤ 251) :
    EncInv (sendFrom (frameHead n.toNat) .ePayload n (lenByte n.toNat) s) :=
  fun _ => ⟨s.txBytes, n.toNat, [], (List.append_nil _).symm, h2, h1, rfl, (csum_nil _).symm⟩

/-- One payload byte more, not the last. -/
theorem EncInv.sendMore {s : State} (hs : EncInv s) (b : Byte) (h : s.encState = .ePayload) (hr : 2 ≤ s.encRem.toNat) :
    EncInv (sendFrom [b] .ePayload (s.encRem - 1) (csgAcc s.encAcc b) s) := by
  obtain ⟨sent, n, d, hsent, hopen⟩ := hs h
  have hsub : (s.encRem - 1).toNat = s.encRem.toNat - 1 := by bv_omega
  have hsum := hopen.rem_eq
  refine fun _ => ⟨sent, n, d ++ [b], ?_, hopen.length_le, ?_, ?_, ?_⟩
  · rw [sendFrom_txBytes, hsent, List.append_assoc _ d]
  · rw [sendFrom_encRem, hsub]
    omega
  · rw [sendFrom_encRem, hsub, List.length_append, List.length_singleton]
    omega
  · rw [sendFrom_encAcc, csum_snoc, hopen.acc_eq]

/-- Every operation keeps the encoder's invariants: `RX` leaves its registers and the stream alone. -/
theorem applyOp_encInv (w : OpWord) (s t : State) (hs : EncInv s) (h : applyOp w s = .next t) : EncInv t := by
  rcases opWord_cases w with ⟨b, rfl⟩ | ⟨n, rfl⟩ | ⟨b, rfl⟩ | ⟨d, rfl⟩
  · obtain ⟨-, rfl⟩ := applyOp_rxWord_next.mp h
    exact hs.of_eq rfl rfl rfl (afterRx_txBytes b s)
  · rcases applyOp_encStart_cases h with ⟨-, rfl⟩ | ⟨he, -, rfl⟩ | ⟨-, -, rfl⟩ | ⟨-, h1, h2, rfl⟩
    · exact hs.of_eq rfl rfl rfl (raiseFault_txBytes _ s)
    · exact encInv_eIdle he
    · exact encInv_eIdle rfl
    · exact encInv_open s h1 h2
  · rcases applyOp_encData_cases h with ⟨he, rfl⟩ | ⟨he, hr, rfl⟩ | ⟨-, -, rfl⟩
    · exact encInv_eIdle he
    · exact hs.sendMore b he hr
    · exact encInv_eIdle rfl
  · rw [applyOp_reset, next_inj] at h
    subst h
    exact encInv_eIdle rfl

/-- Settles O44, by the rows of the encoder's operations. -/
theorem encoderInvariantsKept : Obligations.EncoderInvariantsKept := by
  intro s t hs h
  exact step_keeps (fun s x hs => hs.of_eq rfl rfl rfl rfl) (fun s hs => hs.of_eq rfl rfl rfl rfl) applyOp_encInv hs h

/-! ### `ERR` and the fault log (10_state.md R30, 60_exceptions.md R132) -/

/-- Setting one bit leaves the others alone. -/
theorem errSet_setErr (err : BitVec 3) (c d : FaultCode) :
    errSet (setErr err c) d = (errSet err d || decide (c = d)) := by
  revert err
  cases c <;> cases d <;> decide

/-- An operation but `RESET` sets the bit of the fault it raises and no other. -/
theorem applyOp_errSet {w : OpWord} {s t : State} (hop : wordOp w ≠ .reset) (h : applyOp w s = .next t)
    (c : FaultCode) : errSet t.err c = (errSet s.err c || decide (t.out.fault = some c)) := by
  rcases applyOp_cases h with ⟨b, -, rfl⟩ | ⟨-, ⟨d, rfl⟩ | ⟨bs, e, r, a, rfl⟩⟩ | ⟨hr, -⟩
  · simp
  · simp [errSet_setErr]
  · simp
  · exact absurd hr hop

theorem errSet_zero (c : FaultCode) : errSet 0 c = false := by
  cases c <;> rfl

/-- Every operation keeps each set bit in the log: a bit newly set comes with its fault. -/
theorem applyOp_errLogged (w : OpWord) (s t : State) (hs : ErrLogged s) (h : applyOp w s = .next t) : ErrLogged t := by
  intro c hc
  by_cases hop : wordOp w = .reset
  · rw [applyOp_reset_next hop h, emitNothing_eq, resetRegisters_err, errSet_zero] at hc
    cases hc
  · rw [applyOp_errSet hop h c, Bool.or_eq_true, decide_eq_true_eq] at hc
    rw [(applyOp_traces h).2.2]
    rcases hc with hc | hc
    · exact List.mem_append_left _ (hs c hc)
    · exact List.mem_append_right _ (by rw [hc]; exact List.mem_singleton_self c)

/-- Settles O33: an operation sets at most the bit of the fault it logs, and the log only grows. -/
theorem errStaysLogged : Obligations.ErrStaysLogged := by
  intro s t hs h
  exact step_keeps (P := ErrLogged) (fun s x hs => hs) (fun s hs => hs) applyOp_errLogged hs h

/-- The faults an operation raises, the conditions of the rows that set `ERR` (10_state.md R30). -/
def Violates (w : OpWord) (s : State) : FaultCode → Prop
  | .encBusy => wordOp w = .encStart ∧ s.encState = .ePayload
  | .encLenRange => wordOp w = .encStart ∧ s.encState = .eIdle ∧ 251 < (wordData w).toNat
  | .encIdle => wordOp w = .encData ∧ s.encState = .eIdle

/-- An operation reports a fault exactly where it meets the fault's condition. -/
theorem applyOp_fault_iff {w : OpWord} {s t : State} (h : applyOp w s = .next t) (c : FaultCode) :
    t.out.fault = some c ↔ Violates w s c := by
  rcases opWord_cases w with ⟨b, rfl⟩ | ⟨n, rfl⟩ | ⟨b, rfl⟩ | ⟨d, rfl⟩
  · obtain ⟨-, rfl⟩ := applyOp_rxWord_next.mp h
    cases c <;> simp [Violates]
  · rcases applyOp_encStart_cases h with ⟨he, rfl⟩ | ⟨he, hn, rfl⟩ | ⟨he, rfl, rfl⟩ | ⟨he, h1, h2, rfl⟩
    · cases c <;> simp [Violates, he]
    · cases c <;> simp [Violates, he, hn]
    · cases c <;> simp [Violates, he]
    · cases c <;> simp [Violates, he, h2]
  · rcases applyOp_encData_cases h with ⟨he, rfl⟩ | ⟨he, hr, rfl⟩ | ⟨he, hr, rfl⟩
    · cases c <;> simp [Violates, he]
    · cases c <;> simp [Violates, he]
    · cases c <;> simp [Violates, he]
  · rw [applyOp_reset, next_inj] at h
    subst h
    cases c <;> simp [Violates]

/-- Settles O32: each bit of `ERR` is its old value or set by its row of R30, which is when its fault is reported. -/
theorem errBits : Obligations.ErrBits := by
  refine ⟨rfl, fun i s t h => ?_⟩
  have hw := applyOp_encodeWord h
  refine ⟨fun hop => ?_, fun hop => ?_, fun hop => ?_⟩
  · rw [applyOp_reset_next ((wordOp_encodeWord i).trans hop) hw, emitNothing_eq, resetRegisters_err]
  · rw [exec_rx_eq hop h]
  · have hbit (c : FaultCode) : errSet t.err c = (errSet s.err c || decide (t.out.fault = some c)) :=
      applyOp_errSet ((wordOp_encodeWord i).trans_ne hop) hw c
    have hfault := applyOp_fault_iff hw
    refine ⟨(hbit .encBusy).trans ?_, (hbit .encLenRange).trans ?_, (hbit .encIdle).trans ?_⟩
    · simp only [hfault, Violates, wordOp_encodeWord, errSet, FaultCode.bit]
    · simp only [hfault, Violates, wordOp_encodeWord, wordData_encodeWord, errSet, FaultCode.bit]
    · simp only [hfault, Violates, wordOp_encodeWord, errSet, FaultCode.bit]

/-! ### The record of an operation (10_state.md R31) -/

/-- Who writes which part of the record. -/
theorem applyOp_out_cases {w : OpWord} {s t : State} (h : applyOp w s = .next t) :
    (wordOp w = .rx ∧ t.out.tx = [] ∧ t.out.fault = none) ∨
    ((wordOp w = .encStart ∨ wordOp w = .encData) ∧ t.out.rx = .none ∧ (t.out.tx = [] ∨ t.out.fault = none)) ∨
    (wordOp w = .reset ∧ t.out = Out.silent) := by
  rcases applyOp_cases h with ⟨b, rfl, rfl⟩ | ⟨hop, ⟨c, rfl⟩ | ⟨bs, e, r, a, rfl⟩⟩ | ⟨hop, rfl⟩
  · exact .inl ⟨wordOp_rxWord b, rfl, rfl⟩
  · exact .inr (.inl ⟨hop, rfl, .inl rfl⟩)
  · exact .inr (.inl ⟨hop, rfl, .inr rfl⟩)
  · exact .inr (.inr ⟨hop, rfl⟩)

/-- An operation with an event received a byte in `WaitCSum`, and the event is the one of R99 or R100. -/
theorem applyOp_event {w : OpWord} {s t : State} (h : applyOp w s = .next t) (he : t.out.rx ≠ .none) :
    wordOp w = .rx ∧
      t.out.rx = if wordData w = s.decAcc then .frame s.payload else .csumMismatch s.decAcc (wordData w) := by
  rcases applyOp_cases h with ⟨b, rfl, rfl⟩ | ⟨-, ⟨c, rfl⟩ | ⟨bs, e, r, a, rfl⟩⟩ | ⟨-, rfl⟩
  · rw [afterRx_out_rx] at he ⊢
    have hst : s.decState = .waitCSum := by
      by_contra hne
      exact he (if_neg hne)
    rw [if_pos hst, wordData_rxWord]
    exact ⟨wordOp_rxWord b, rfl⟩
  · exact absurd rfl he
  · exact absurd rfl he
  · exact absurd rfl he

/-- Settles O35, from who writes which part of the record and which event a byte brings. -/
theorem outRecordIsExclusive : Obligations.OutRecordIsExclusive := by
  refine ⟨fun i s t h => ?_, fun p c r => ⟨rfl, rfl, rfl⟩⟩
  have hw := applyOp_encodeWord h
  have hev := applyOp_event hw
  rw [wordOp_encodeWord, wordData_encodeWord] at hev
  refine ⟨?_, fun he => (hev he).1, fun he => ?_, fun p hp => ?_, fun c r hcr => ?_⟩
  · rcases applyOp_out_cases hw with ⟨-, htx, hf⟩ | ⟨-, hrx, htf⟩ | ⟨-, ho⟩
    · exact ⟨.inr htx, .inr hf, .inl htx⟩
    · exact ⟨.inl hrx, .inl hrx, htf⟩
    · rw [ho]
      exact ⟨.inl rfl, .inl rfl, .inl rfl⟩
  · rcases applyOp_out_cases hw with ⟨-, htx, hf⟩ | ⟨hop, -, -⟩ | ⟨-, ho⟩
    · exact he.elim (absurd htx) (absurd hf)
    · rwa [wordOp_encodeWord] at hop
    · rw [ho] at he
      exact he.elim (absurd rfl) (absurd rfl)
  · have hp' := (hev (by rw [hp]; exact RxEvent.noConfusion)).2
    rw [hp] at hp'
    split at hp'
    · cases hp'
      have hlt := s.decCnt.isLt
      rw [State.payload, Memory.slice_length]
      omega
    · cases hp'
  · have hcr' := (hev (by rw [hcr]; exact RxEvent.noConfusion)).2
    rw [hcr] at hcr'
    split at hcr'
    · cases hcr'
    · cases hcr'
      exact ⟨rfl, rfl⟩

/-! ### After power-on reset (10_state.md R33) -/

/-- Settles O45: nothing is received, sent or faulted yet. -/
theorem invariantsAtReset : Obligations.InvariantsAtReset := by
  refine ⟨decInv_outside_frame rfl (by decide) (by decide), encInv_eIdle rfl, fun c hc => ?_, ?_⟩
  · change errSet 0 c = true at hc
    rw [errSet_zero] at hc
    cases hc
  · exact ⟨[], [], rfl, by simp, fun _ => rfl, fun h => (by cases h)⟩

end Sys2Proof.Machine
end

section
/-! PROOFS. No output depends on a value that the spec leaves unspecified (O48): operations in two states that no output
tells apart give the same record and two such states. -/

namespace Sys2Proof.Machine

/-! ### The decoder -/

/-- Outside a frame `DEC_STATE` is all that counts (10_state.md R26 item 4). -/
theorem sameDecoder_outside_frame {s t : State} (h : s.decState = t.decState) (hr : s.decState ≠ .receiving)
    (hw : s.decState ≠ .waitCSum) : SameDecoder s t :=
  ⟨h, fun hf => hf.elim (fun hf => absurd hf hr) (fun hf => absurd hf hw)⟩

/-- Within a frame the payload received so far is the same. -/
theorem SameDecoder.payload_eq {s t : State} (h : SameDecoder s t) (hw : s.decState = .waitCSum) :
    s.payload = t.payload := by
  obtain ⟨-, -, hcnt, hread⟩ := h.frame (.inr hw)
  rw [State.payload, State.payload, ← hcnt]
  exact Memory.slice_congr hread

theorem cntSucc_le (c : Fin 252) : (cntSucc c).val ≤ c.val + 1 := by
  unfold cntSucc
  split <;> simp

/-- A length byte sets all that counts. -/
theorem sameDecoder_acceptLength (s t : State) (b : Byte) (d : DecState) :
    SameDecoder (acceptLength b d s) (acceptLength b d t) :=
  ⟨rfl, fun _ => ⟨rfl, rfl, rfl, fun _ hi => absurd hi (Nat.not_lt_zero _)⟩⟩

/-- A payload byte is stored at the same index, below which the buffers read alike. -/
theorem SameDecoder.storeByte {s t : State} (h : SameDecoder s t) (hs : Memory.wf s.buf = true)
    (ht : Memory.wf t.buf = true) (b : Byte) (hr : s.decState = .receiving) :
    SameDecoder (storeByte b s) (storeByte b t) := by
  obtain ⟨hlen, hacc, hcnt, hread⟩ := h.frame (.inl hr)
  have hle := cntSucc_le s.decCnt
  unfold Machine.storeByte
  rw [← hlen, ← hacc, ← hcnt]
  refine ⟨rfl, fun _ => ⟨rfl, rfl, rfl, fun i (hi : i < (cntSucc s.decCnt).val) => ?_⟩⟩
  rw [Memory.read_write hs, Memory.read_write ht]
  split
  · rfl
  · exact hread i (by omega)

/-- The record has no part in it. -/
theorem SameDecoder.emitNothing {s t : State} (h : SameDecoder s t) : SameDecoder (emitNothing s) (emitNothing t) :=
  ⟨h.state, h.frame⟩

/-- Received bytes keep the decoders alike. -/
theorem SameDecoder.afterRx {s t : State} (h : SameDecoder s t) (hs : Memory.wf s.buf = true)
    (ht : Memory.wf t.buf = true) (b : Byte) : SameDecoder (afterRx b s) (afterRx b t) := by
  have hst := h.state
  cases hd : s.decState with
  | idle =>
    rw [hd] at hst
    rw [afterRx_idle b hd, afterRx_idle b hst.symm]
    split
    · exact sameDecoder_outside_frame rfl (by simp) (by simp)
    · exact sameDecoder_outside_frame rfl (by simp) (by simp)
  | header2 =>
    rw [hd] at hst
    rw [afterRx_header2 b hd, afterRx_header2 b hst.symm]
    split
    · exact sameDecoder_outside_frame rfl (by simp) (by simp)
    · exact sameDecoder_outside_frame rfl (by simp) (by simp)
  | headerOk =>
    rw [hd] at hst
    rw [afterRx_headerOk b hd, afterRx_headerOk b hst.symm]
    exact (sameDecoder_acceptLength s t b _).emitNothing
  | receiving =>
    rw [hd] at hst
    rw [afterRx_receiving b hd, afterRx_receiving b hst.symm]
    exact (h.storeByte hs ht b hd).emitNothing
  | waitCSum =>
    rw [hd] at hst
    rw [afterRx_waitCSum b hd, afterRx_waitCSum b hst.symm]
    exact sameDecoder_outside_frame rfl (by simp) (by simp)

/-- Received bytes give the same record. -/
theorem SameDecoder.afterRx_out {s t : State} (h : SameDecoder s t) (b : Byte) :
    (Machine.afterRx b s).out = (Machine.afterRx b t).out := by
  have hrx : (Machine.afterRx b s).out.rx = (Machine.afterRx b t).out.rx := by
    rw [afterRx_out_rx, afterRx_out_rx, ← h.state]
    by_cases hw : s.decState = .waitCSum
    · obtain ⟨-, hacc, -, -⟩ := h.frame (.inr hw)
      rw [h.payload_eq hw, hacc]
    · rw [if_neg hw, if_neg hw]
  exact congrArg (fun e => ({ rx := e, tx := [], fault := none } : Out)) hrx

/-! ### Both units -/

/-- Canonical buffers, and registers that no output tells apart. -/
structure Alike (s t : State) : Prop where
  left_bufWf : Memory.wf s.buf = true
  right_bufWf : Memory.wf t.buf = true
  dec : SameDecoder s t
  enc : SameEncoder s t

theorem afterRx_bufWf {s : State} (b : Byte) (hs : Memory.wf s.buf = true)
    (hc : s.decState = .receiving → s.decCnt.val < 251) : Memory.wf (afterRx b s).buf = true := by
  cases h : s.decState with
  | idle => rw [afterRx_idle b h, emitNothing_eq]; exact hs
  | header2 => rw [afterRx_header2 b h, emitNothing_eq]; exact hs
  | headerOk => rw [afterRx_headerOk b h, emitNothing_eq]; exact hs
  | receiving => rw [afterRx_receiving b h, emitNothing_eq]; exact Memory.wf_write hs (hc h)
  | waitCSum => rw [afterRx_waitCSum b h, emitRx_eq]; exact hs

/-- Every operation keeps `BUF` canonical. -/
theorem applyOp_bufWf {w : OpWord} {s t : State} (hs : Memory.wf s.buf = true) (h : applyOp w s = .next t) :
    Memory.wf t.buf = true := by
  rcases applyOp_cases h with ⟨b, rfl, rfl⟩ | ⟨-, ⟨c, rfl⟩ | ⟨bs, e, r, a, rfl⟩⟩ | ⟨-, rfl⟩
  · exact afterRx_bufWf b hs (applyOp_rxWord_next.mp h).1
  · exact hs
  · exact hs
  · exact freeBuffer_wf _

/-- A received byte in alike states. -/
theorem applyOp_rxWord_alike {b : Byte} {s t s' : State} (hst : Alike s t) (h : applyOp (rxWord b) s = .next s') :
    ∃ t', applyOp (rxWord b) t = .next t' ∧ SameDecoder s' t' ∧ SameEncoder s' t' ∧ s'.out = t'.out := by
  obtain ⟨hc, rfl⟩ := applyOp_rxWord_next.mp h
  refine ⟨_, applyOp_rxWord b fun ht => ?_, hst.dec.afterRx hst.left_bufWf hst.right_bufWf b,
    ⟨hst.enc.state, hst.enc.err, hst.enc.frame⟩, hst.dec.afterRx_out b⟩
  have hs := hst.dec.state.trans ht
  obtain ⟨-, -, hcnt, -⟩ := hst.dec.frame (.inl hs)
  rw [← hcnt]
  exact hc hs

/-- A fault in alike states. -/
theorem Alike.raiseFault {s t : State} (hst : Alike s t) (c : FaultCode) :
    SameDecoder (raiseFault c s) (raiseFault c t) ∧ SameEncoder (raiseFault c s) (raiseFault c t) :=
  ⟨⟨hst.dec.state, hst.dec.frame⟩, ⟨hst.enc.state, congrArg (setErr · c) hst.enc.err, hst.enc.frame⟩⟩

/-- Bytes sent in alike states, with the same registers written. -/
theorem Alike.sendFrom {s t : State} (hst : Alike s t) (bs : List Byte) (e : EncState) (r a : Byte) :
    SameDecoder (sendFrom bs e r a s) (sendFrom bs e r a t) ∧ SameEncoder (sendFrom bs e r a s) (sendFrom bs e r a t) :=
  ⟨⟨hst.dec.state, hst.dec.frame⟩, ⟨rfl, hst.enc.err, fun _ => ⟨rfl, rfl⟩⟩⟩

theorem alike_reset (s t : State) : Alike (emitNothing (resetRegisters s)) (emitNothing (resetRegisters t)) :=
  ⟨freeBuffer_wf _, freeBuffer_wf _, sameDecoder_outside_frame rfl (by simp) (by simp),
    ⟨rfl, rfl, fun h => (by cases h)⟩⟩

/-- `ENC_START` in alike states. -/
theorem applyOp_encStart_alike {n : Byte} {s t s' : State} (hst : Alike s t)
    (h : applyOp (encStartWord n) s = .next s') :
    ∃ t', applyOp (encStartWord n) t = .next t' ∧ SameDecoder s' t' ∧ SameEncoder s' t' ∧ s'.out = t'.out := by
  have he := hst.enc.state
  rcases applyOp_encStart_cases h with ⟨hs, rfl⟩ | ⟨hs, hn, rfl⟩ | ⟨hs, rfl, rfl⟩ | ⟨hs, h1, h2, rfl⟩
  · obtain ⟨hd, hen⟩ := hst.raiseFault .encBusy
    exact ⟨_, applyOp_encStart_busy n (he ▸ hs), hd, hen, rfl⟩
  · obtain ⟨hd, hen⟩ := hst.raiseFault .encLenRange
    exact ⟨_, applyOp_encStart_range (he ▸ hs) hn, hd, hen, rfl⟩
  · obtain ⟨hd, hen⟩ := hst.sendFrom [0x55, 0xAA, 4, 4] .eIdle 0 4
    exact ⟨_, applyOp_encStart_empty (he ▸ hs), hd, hen, rfl⟩
  · obtain ⟨hd, hen⟩ := hst.sendFrom (frameHead n.toNat) .ePayload n (lenByte n.toNat)
    exact ⟨_, applyOp_encStart_open (he ▸ hs) h1 h2, hd, hen, rfl⟩

/-- `ENC_DATA` in alike states: with a frame open `ENC_REM` and `ENC_ACC` are the same. -/
theorem applyOp_encData_alike {b : Byte} {s t s' : State} (hst : Alike s t)
    (h : applyOp (encDataWord b) s = .next s') :
    ∃ t', applyOp (encDataWord b) t = .next t' ∧ SameDecoder s' t' ∧ SameEncoder s' t' ∧ s'.out = t'.out := by
  have he := hst.enc.state
  rcases applyOp_encData_cases h with ⟨hs, rfl⟩ | ⟨hs, hr, rfl⟩ | ⟨hs, hr, rfl⟩
  · obtain ⟨hd, hen⟩ := hst.raiseFault .encIdle
    exact ⟨_, applyOp_encData_idle b (he ▸ hs), hd, hen, rfl⟩
  · obtain ⟨hrem, hacc⟩ := hst.enc.frame hs
    rw [hrem] at hr ⊢
    rw [hacc]
    obtain ⟨hd, hen⟩ := hst.sendFrom [b] .ePayload (t.encRem - 1) (csgAcc t.encAcc b)
    exact ⟨_, applyOp_encData_more b (he ▸ hs) hr, hd, hen, rfl⟩
  · obtain ⟨hrem, hacc⟩ := hst.enc.frame hs
    rw [hrem] at hr
    rw [hacc]
    obtain ⟨hd, hen⟩ := hst.sendFrom [b, csgAcc t.encAcc b] .eIdle 0 (csgAcc t.encAcc b)
    exact ⟨_, applyOp_encData_last b (he ▸ hs) hr, hd, hen, rfl⟩

/-- Any operation in alike states: the same record, and alike states again. -/
theorem applyOp_alike {w : OpWord} {s t s' : State} (hst : Alike s t) (h : applyOp w s = .next s') :
    ∃ t', applyOp w t = .next t' ∧ Alike s' t' ∧ s'.out = t'.out := by
  have hsame : ∃ t', applyOp w t = .next t' ∧ SameDecoder s' t' ∧ SameEncoder s' t' ∧ s'.out = t'.out := by
    rcases opWord_cases w with ⟨b, rfl⟩ | ⟨n, rfl⟩ | ⟨b, rfl⟩ | ⟨d, rfl⟩
    · exact applyOp_rxWord_alike hst h
    · exact applyOp_encStart_alike hst h
    · exact applyOp_encData_alike hst h
    · rw [applyOp_reset, next_inj] at h
      subst h
      exact ⟨_, applyOp_reset d t, (alike_reset s t).dec, (alike_reset s t).enc, rfl⟩
  obtain ⟨t', ht, hdec, henc, hout⟩ := hsame
  exact ⟨t', ht, ⟨applyOp_bufWf hst.left_bufWf h, applyOp_bufWf hst.right_bufWf ht, hdec, henc⟩, hout⟩

/-! ### What the host sees -/

theorem SameVisible.hostView_eq {s t : State} (h : SameVisible s t) : s.hostView = t.hostView := by
  rw [State.hostView, State.hostView, h.out, h.enc.err, h.enc.state]

/-- Settles O48: the step's operation runs in both states, gives one record, and so adds the same to the traces. -/
theorem unspecifiedValuesNeverSeen : Obligations.UnspecifiedValuesNeverSeen := by
  intro s t s' hs ht h hstep _
  suffices hsame : ∃ t', step t = .next t' ∧ SameVisible s' t' by
    obtain ⟨t', ht', hvis⟩ := hsame
    exact ⟨t', ht', hvis, hvis.hostView_eq⟩
  have ⟨hdec, henc, _, hrxEvents, htxBytes, hfaultLog, hpending⟩ := h
  rcases step_op_cases hstep with ⟨hp, rfl⟩ | ⟨w, rest, hp, hw⟩
  · exact ⟨_, step_nil (hpending ▸ hp), ⟨hdec.state, hdec.frame⟩, ⟨henc.state, henc.err, henc.frame⟩, rfl,
      hrxEvents, htxBytes, hfaultLog, hpending⟩
  · have hst : Alike { s with pending := rest } { t with pending := rest } :=
      ⟨hs, ht, ⟨hdec.state, hdec.frame⟩, ⟨henc.state, henc.err, henc.frame⟩⟩
    obtain ⟨t', hw', hst', hout⟩ := applyOp_alike hst hw
    obtain ⟨hrx, htx, hlog⟩ := applyOp_traces hw
    obtain ⟨hrx', htx', hlog'⟩ := applyOp_traces hw'
    refine ⟨t', (step_cons (hpending ▸ hp)).trans hw', hst'.dec, hst'.enc, hout, ?_, ?_, ?_, ?_⟩
    · rw [hrx, hrx', hout, hrxEvents]
    · rw [htx, htx', hout, htxBytes]
    · rw [hlog, hlog', hout, hfaultLog]
    · rw [(applyOp_pending [] hw).2, (applyOp_pending [] hw').2]

end Sys2Proof.Machine
end

section
/-! PROOFS. The register level (10_state.md R34): what one clock cycle does to the event shown and to the bytes that
wait (O55, O56, O57), and register-level runs (O54). -/

namespace Sys2Proof.Machine

/-! ### The registers after an edge -/

section
variable (p : PortState) (i : PortIn) (c : State)

@[simp] theorem PortState.after_core : (p.after i c).core = c := rfl
@[simp] theorem PortState.after_ev : (p.after i c).ev = (c.rxEvents.drop p.core.rxEvents.length).headD .none := rfl
@[simp] theorem PortState.after_txq :
    (p.after i c).txq = p.txq.drop (p.takes i).length ++ c.txBytes.drop p.core.txBytes.length := rfl
@[simp] theorem PortState.after_taken : (p.after i c).taken = p.taken ++ p.takes i := rfl
@[simp] theorem PortState.after_pulsed : (p.after i c).pulsed = p.pulsed ++ p.ev.toList := rfl

end

/-! ### What a cycle accepts -/

/-- The block's state after the received byte of a cycle without `rst`, if there is one. -/
def PortState.coreAfterRx (p : PortState) (i : PortIn) : State :=
  if i.rxValid then afterRx i.rxData p.core else p.core

/-- The event that a cycle brings: that of the byte it receives. -/
def PortState.eventIn (p : PortState) (i : PortIn) : RxEvent :=
  if i.rst = false ∧ i.rxValid = true then (afterRx i.rxData p.core).out.rx else .none

theorem wordOp_encWord (i : PortIn) : wordOp i.encWord = .encStart ∨ wordOp i.encWord = .encData := by
  unfold PortIn.encWord
  split
  · exact .inl (wordOp_encStartWord _)
  · exact .inr (wordOp_encDataWord _)

theorem encWords_eq (p : PortState) (i : PortIn) : p.encWords i = [] ∨ p.encWords i = [i.encWord] := by
  unfold PortState.encWords
  split
  · exact .inr rfl
  · exact .inl rfl

/-- An encoder operation brings no event. -/
theorem applyOps_encWords_rxEvents {p : PortState} {i : PortIn} {s t : State}
    (h : applyOps (p.encWords i) s = .next t) : t.rxEvents = s.rxEvents := by
  rcases encWords_eq p i with hw | hw <;> rw [hw] at h
  · cases h
    rfl
  · obtain ⟨u, hu, ht⟩ := applyOps_cons_next.mp h
    cases ht
    obtain ⟨j, hj, he⟩ := applyOp_next.mp hu
    have hop : j.op = .encStart ∨ j.op = .encData := by
      rw [(op_of_selectRow hj).1]
      exact wordOp_encWord i
    rw [exec_enc_eq hop he]

/-- The byte of a cycle. -/
theorem applyOps_rxWords_next {p : PortState} {i : PortIn} {u : State} (h : applyOps i.rxWords p.core = .next u) :
    u = p.coreAfterRx i := by
  unfold PortIn.rxWords at h
  unfold PortState.coreAfterRx
  split at h
  · next hv =>
    obtain ⟨v, hb, hu⟩ := applyOps_cons_next.mp h
    cases hu
    rw [if_pos hv]
    exact (applyOp_rxWord_next.mp hb).2
  · next hv =>
    cases h
    rw [if_neg hv]

/-- Everything a cycle can do to the block: `rst` resets it; without `rst` it takes the byte received, then the encoder
operation accepted. -/
theorem clock_cases {p q : PortState} {i : PortIn} (h : p.clock i = .next q) :
    (i.rst = true ∧ q = p.after i (emitNothing (resetRegisters p.core))) ∨
    (i.rst = false ∧ ∃ c, applyOps (p.encWords i) (p.coreAfterRx i) = .next c ∧ q = p.after i c) := by
  obtain ⟨c, hc, hq⟩ := clock_next.mp h
  unfold PortState.accepted at hc
  split at hc
  · next hrst =>
    obtain ⟨u, hu, hcu⟩ := applyOps_cons_next.mp hc
    cases hcu
    exact .inl ⟨hrst, applyOp_reset_next wordOp_resetWord hu ▸ hq⟩
  · next hrst =>
    obtain ⟨u, hu, hcu⟩ := applyOps_append_next.mp hc
    rw [applyOps_rxWords_next hu] at hcu
    exact .inr ⟨Bool.eq_false_of_not_eq_true hrst, c, hcu, hq⟩

/-! ### The event shown -/

theorem coreAfterRx_rxEvents {p : PortState} {i : PortIn} (hrst : i.rst = false) :
    (p.coreAfterRx i).rxEvents = p.core.rxEvents ++ (p.eventIn i).toList := by
  cases hv : i.rxValid <;> simp [PortState.coreAfterRx, PortState.eventIn, hrst, hv]

/-- The events of the block grow by the cycle's event. -/
theorem clock_rxEvents {p q : PortState} {i : PortIn} (h : p.clock i = .next q) :
    q.core.rxEvents = p.core.rxEvents ++ (p.eventIn i).toList := by
  rcases clock_cases h with ⟨hrst, rfl⟩ | ⟨hrst, c, hc, rfl⟩
  · simp [PortState.eventIn, hrst]
  · exact (applyOps_encWords_rxEvents hc).trans (coreAfterRx_rxEvents hrst)

theorem RxEvent.headD_toList (e : RxEvent) : e.toList.headD .none = e := by
  cases e <;> rfl

/-- The event of a cycle is shown in the next one. -/
theorem clock_ev {p q : PortState} {i : PortIn} (h : p.clock i = .next q) : q.ev = p.eventIn i := by
  have hev := clock_rxEvents h
  obtain ⟨c, -, rfl⟩ := clock_next.mp h
  rw [PortState.after_core] at hev
  rw [PortState.after_ev, hev, List.drop_left, RxEvent.headD_toList]

/-- A byte brings an event exactly in `WaitCSum`. -/
theorem eventIn_ne_none {p : PortState} {i : PortIn} :
    p.eventIn i ≠ .none ↔ i.rst = false ∧ i.rxValid = true ∧ p.core.decState = .waitCSum := by
  unfold PortState.eventIn
  rw [afterRx_out_rx]
  constructor
  · intro h
    split at h
    · next hin =>
      split at h
      · next hst => exact ⟨hin.1, hin.2, hst⟩
      · exact absurd rfl h
    · exact absurd rfl h
  · rintro ⟨hrst, hv, hst⟩
    rw [if_pos ⟨hrst, hv⟩, if_pos hst]
    split <;> exact RxEvent.noConfusion

/-- The event of a byte in `WaitCSum` (41_decoder.md R99, R100). -/
theorem eventIn_eq {p : PortState} {i : PortIn} (h : p.eventIn i ≠ .none) :
    p.eventIn i =
      if i.rxData = p.core.decAcc then .frame p.core.payload else .csumMismatch p.core.decAcc i.rxData := by
  obtain ⟨hrst, hv, hst⟩ := eventIn_ne_none.mp h
  rw [PortState.eventIn, if_pos ⟨hrst, hv⟩, afterRx_out_rx, if_pos hst]

/-- Settles O55: the ports show the event of the cycle before. -/
theorem eventPulse : Obligations.EventPulse := by
  intro p q i j h
  have hev := clock_ev h
  have hvalid : (q.outputs j).evValid = true ↔ p.eventIn i ≠ .none := by
    rw [← hev]
    exact decide_eq_true_iff
  refine ⟨hvalid.trans eventIn_ne_none, fun hv hb => ?_, fun hv hb => ?_⟩
  · have hframe : q.ev = .frame p.core.payload := by rw [hev, eventIn_eq (hvalid.mp hv), if_pos hb]
    have hlt := p.core.decCnt.isLt
    refine ⟨?_, ?_⟩
    · simp [PortState.outputs, PortState.evCode, hframe, RxEvent.code]
    · have hlen : p.core.payload.length = p.core.decCnt.val := Memory.slice_length _ _
      simp only [PortState.outputs, PortState.evLen, hframe, hlen, BitVec.toNat_ofNat]
      omega
  · have hmis : q.ev = .csumMismatch p.core.decAcc i.rxData := by rw [hev, eventIn_eq (hvalid.mp hv), if_neg hb]
    simp [PortState.outputs, PortState.evCode, PortState.evComputed, PortState.evReceived, hmis, RxEvent.code]

/-! ### The read ports -/

/-- Settles O56: the read index is an input of `buf_rdata` alone. -/
theorem portReads : Obligations.PortReads := by
  intro p i a
  exact ⟨fun hi => if_pos (Nat.lt_succ_of_le hi), rfl, rfl, decide_eq_true_iff⟩

/-! ### The transmit port -/

/-- What the sink takes is the oldest byte that waits, or nothing. -/
theorem takes_append_drop (p : PortState) (i : PortIn) : p.takes i ++ p.txq.drop (p.takes i).length = p.txq := by
  unfold PortState.takes
  split
  · cases p.txq <;> simp
  · rfl

theorem takes_length_le (p : PortState) (i : PortIn) : (p.takes i).length ≤ 1 := by
  unfold PortState.takes
  split <;> simp

/-- A received byte leaves the encoder's registers, `ERR` and the stream alone. -/
theorem coreAfterRx_encoder (p : PortState) (i : PortIn) :
    (p.coreAfterRx i).encState = p.core.encState ∧ (p.coreAfterRx i).encRem = p.core.encRem ∧
      (p.coreAfterRx i).encAcc = p.core.encAcc ∧ (p.coreAfterRx i).err = p.core.err ∧
      (p.coreAfterRx i).txBytes = p.core.txBytes := by
  unfold PortState.coreAfterRx
  split
  · exact ⟨rfl, rfl, rfl, rfl, afterRx_txBytes _ _⟩
  · exact ⟨rfl, rfl, rfl, rfl, rfl⟩

/-- While a byte waits no encoder operation is accepted, so a cycle without `rst` does what its byte does. -/
theorem clock_of_waiting {p q : PortState} {i : PortIn} (hready : p.encReady = false) (hrst : i.rst = false)
    (h : p.clock i = .next q) : q = p.after i (p.coreAfterRx i) := by
  have hnone : p.encWords i = [] := by simp [PortState.encWords, hready]
  rcases clock_cases h with ⟨hrst', -⟩ | ⟨-, c, hc, hq⟩
  · rw [hrst] at hrst'
    cases hrst'
  · rw [hnone] at hc
    cases hc
    exact hq

/-- Settles O57: while a byte waits the stream does not grow, so the bytes that wait change by the sink's
taking alone. -/
theorem transmitBackpressure : Obligations.TransmitBackpressure := by
  intro p q i b rest hq h
  have hready : p.encReady = false := by rw [PortState.encReady, hq]; rfl
  have hcycle (hrst : i.rst = false) : q = p.after i (p.coreAfterRx i) := clock_of_waiting hready hrst h
  obtain ⟨hstate, hrem, hacc, herr, htx⟩ := coreAfterRx_encoder p i
  refine ⟨hready, ?_, ?_, fun hrst => ?_, fun hrst hr => ?_, fun hrst hr => ?_⟩
  · simp [PortState.outputs, hq]
  · simp [PortState.outputs, PortState.txData, hq]
  · rw [hcycle hrst]
    exact ⟨hstate, hrem, hacc, herr, htx⟩
  · rw [hcycle hrst]
    simp [PortState.takes, hrst, hr, htx]
  · rw [hcycle hrst]
    simp [PortState.takes, hrst, hr, htx, hq]

/-! ### The streams over a cycle and over a run -/

/-- The bytes taken and those that wait are the transmit stream; the events shown and the one being shown are the
events of the block. -/
def PortState.CarriesTraces (p : PortState) : Prop :=
  p.taken ++ p.txq = p.core.txBytes ∧ p.pulsed ++ p.ev.toList = p.core.rxEvents

theorem clock_carriesTraces {p q : PortState} {i : PortIn} (hp : p.CarriesTraces) (h : p.clock i = .next q) :
    q.CarriesTraces := by
  obtain ⟨htx, hrx⟩ := hp
  have hev := clock_ev h
  have hevents := clock_rxEvents h
  obtain ⟨c, hc, rfl⟩ := clock_next.mp h
  obtain ⟨bs, hbs⟩ := applyOps_txBytes hc
  refine ⟨?_, ?_⟩
  · rw [PortState.after_taken, PortState.after_txq, PortState.after_core]
    calc
      _ = p.taken ++ (p.takes i ++ p.txq.drop (p.takes i).length) ++ c.txBytes.drop p.core.txBytes.length := by
        simp only [List.append_assoc]
      _ = c.txBytes := by rw [takes_append_drop, htx, hbs, List.drop_left]
  · rw [PortState.after_pulsed, hrx, hev, hevents]

theorem cycles_carriesTraces {ins : List PortIn} {p q : PortState} (hp : p.CarriesTraces)
    (h : PortState.cycles ins p = .next q) : q.CarriesTraces := by
  induction ins generalizing p with
  | nil =>
    cases h
    exact hp
  | cons i ins ih =>
    obtain ⟨r, hr, hq⟩ := cycles_cons_next.mp h
    exact ih (clock_carriesTraces hp hr) hq

/-! ### No run stops -/

/-- No operation stops the block where the invariants hold (41_decoder.md R102, 60_exceptions.md R136). -/
theorem applyOp_runs {s : State} (hd : DecInv s) (he : EncInv s) (w : OpWord) : ∃ t, applyOp w s = .next t := by
  rcases opWord_cases w with ⟨b, rfl⟩ | ⟨n, rfl⟩ | ⟨b, rfl⟩ | ⟨d, rfl⟩
  · exact ⟨_, applyOp_rxWord b hd.cnt_lt⟩
  · obtain ⟨t, ht, -⟩ := applyOp_encStart_runs n s
    exact ⟨t, ht⟩
  · exact applyOp_encData_runs b he.rem_pos
  · exact ⟨_, applyOp_reset d s⟩

/-- From any state with the invariants every list of operations goes on to its end, and keeps them. -/
theorem applyOps_runs {ws : List OpWord} {s : State} (hd : DecInv s) (he : EncInv s) :
    ∃ t, applyOps ws s = .next t ∧ DecInv t ∧ EncInv t := by
  induction ws generalizing s with
  | nil => exact ⟨s, rfl, hd, he⟩
  | cons w ws ih =>
    obtain ⟨u, hu⟩ := applyOp_runs hd he w
    obtain ⟨t, ht, hinv⟩ := ih (applyOp_decInv w s u hd hu) (applyOp_encInv w s u he hu)
    exact ⟨t, applyOps_cons_next.mpr ⟨u, hu, ht⟩, hinv⟩

theorem cycles_runs {ins : List PortIn} {p : PortState} (hd : DecInv p.core) (he : EncInv p.core) :
    ∃ q, PortState.cycles ins p = .next q := by
  induction ins generalizing p with
  | nil => exact ⟨p, rfl⟩
  | cons i ins ih =>
    obtain ⟨c, hc, hcd, hce⟩ := applyOps_runs (ws := p.accepted i) hd he
    obtain ⟨q, hq⟩ := ih (p := p.after i c) hcd hce
    exact ⟨q, cycles_cons_next.mpr ⟨_, clock_next.mpr ⟨c, hc, rfl⟩, hq⟩⟩

/-! ### Runs from `rst` -/

/-- `s` and `t` are alike, and what the traces of `s` hold beyond those of `base` is what those of `t` hold. -/
structure AlikeSince (base s t : State) : Prop where
  alike : Alike s t
  rxEvents : s.rxEvents = base.rxEvents ++ t.rxEvents
  txBytes : s.txBytes = base.txBytes ++ t.txBytes
  faultLog : s.faultLog = base.faultLog ++ t.faultLog

theorem applyOp_alikeSince {w : OpWord} {base s t s' : State} (hst : AlikeSince base s t)
    (h : applyOp w s = .next s') : ∃ t', applyOp w t = .next t' ∧ AlikeSince base s' t' := by
  obtain ⟨t', ht, halike, hout⟩ := applyOp_alike hst.alike h
  obtain ⟨hrx, htx, hlog⟩ := applyOp_traces h
  obtain ⟨hrx', htx', hlog'⟩ := applyOp_traces ht
  refine ⟨t', ht, halike, ?_, ?_, ?_⟩
  · rw [hrx, hrx', hst.rxEvents, hout, List.append_assoc]
  · rw [htx, htx', hst.txBytes, hout, List.append_assoc]
  · rw [hlog, hlog', hst.faultLog, hout, List.append_assoc]

theorem applyOps_alikeSince {ws : List OpWord} {base s t s' : State} (hst : AlikeSince base s t)
    (h : applyOps ws s = .next s') : ∃ t', applyOps ws t = .next t' ∧ AlikeSince base s' t' := by
  induction ws generalizing s t with
  | nil =>
    cases h
    exact ⟨t, rfl, hst⟩
  | cons w ws ih =>
    obtain ⟨u, hu, hs⟩ := applyOps_cons_next.mp h
    obtain ⟨v, hv, huv⟩ := applyOp_alikeSince hst hu
    obtain ⟨t', ht, hst'⟩ := ih huv hs
    exact ⟨t', applyOps_cons_next.mpr ⟨v, hv, ht⟩, hst'⟩

/-- `RESET` makes any state alike to the state it makes of power-on reset, from where the traces are counted. -/
theorem alikeSince_reset (s : State) :
    AlikeSince s (emitNothing (resetRegisters s)) (emitNothing (resetRegisters State.reset)) :=
  ⟨alike_reset s State.reset, by simp [State.reset], by simp [State.reset], by simp [State.reset]⟩

/-- What was gained since `base` is the observation of the state whose traces began empty. -/
theorem AlikeSince.observation_eq {base s t : State} (h : AlikeSince base s t) :
    t.observation = base.observationSince s := by
  simp [State.observation, State.observationSince, h.rxEvents, h.txBytes, h.faultLog, h.alike.dec.state,
    h.alike.enc.state]

/-- Operations that begin with `RESET` run from power-on reset as they run from any state. -/
theorem runOps_of_reset_first {ws : List OpWord} {s s' : State} (h : applyOps (resetWord :: ws) s = .next s') :
    ∃ u, runOps (resetWord :: ws) = .next u ∧ u.observation = s.observationSince s' := by
  obtain ⟨r, hr, hs⟩ := applyOps_cons_next.mp h
  rw [applyOp_reset_next wordOp_resetWord hr] at hs
  obtain ⟨u, hu, hsince⟩ := applyOps_alikeSince (alikeSince_reset s) hs
  exact ⟨u, runOps_iff.mpr (applyOps_cons_next.mpr ⟨_, applyOp_reset 0 State.reset, hu⟩), hsince.observation_eq⟩

/-- A run from `rst` accepts `RESET` first. -/
theorem acceptedIn_fromRst {p r : PortState} {i : PortIn} {ins : List PortIn}
    (h : p.clock { i with rst := true } = .next r) :
    PortState.acceptedIn (fromRst i ins) p = resetWord :: PortState.acceptedIn ins r :=
  acceptedIn_cons h

/-- Settles O54: a cycle moves bytes and events along the streams; the invariants keep a run going; its operations run
from power-on reset; and after `RESET` no output tells the states of the two runs apart. -/
theorem portsCarryTheTraces : Obligations.PortsCarryTheTraces := by
  obtain ⟨hd, he, -, -⟩ := invariantsAtReset
  refine ⟨fun p q i htx hrx h _ => ?_, fun ins => cycles_runs hd he, fun ins q h _ => ?_, fun p q i ins h _ => ?_⟩
  · obtain ⟨htx', hrx'⟩ := clock_carriesTraces ⟨htx, hrx⟩ h
    obtain ⟨c, -, rfl⟩ := clock_next.mp h
    exact ⟨htx', hrx', p.takes i, rfl, takes_length_le p i⟩
  · exact ⟨runOps_iff.mpr (cycles_core h), cycles_carriesTraces (p := PortState.reset) ⟨rfl, rfl⟩ h⟩
  · obtain ⟨r, hr, -⟩ := cycles_cons_next.mp h
    have hops := cycles_core h
    rw [acceptedIn_fromRst hr] at hops ⊢
    exact runOps_of_reset_first hops

end Sys2Proof.Machine
end

section
/-! PROOFS. The payload buffer and the transmit stream (20_memory.md): what is stored in `BUF` (O16, O40, O46), whole
frames in the stream (O47), and two units that do not look at each other (O41, O42). -/

namespace Sys2Proof.Machine

/-! ### Frames in the transmit stream (20_memory.md R48) -/

/-- An open frame is read from `ENC_REM` and `ENC_ACC` alone. -/
theorem OpenFrame.of_eq {s t : State} {n : Nat} {d : List Byte} (hs : OpenFrame s n d) (hr : t.encRem = s.encRem)
    (ha : t.encAcc = s.encAcc) : OpenFrame t n d :=
  ⟨hs.length_le, hr ▸ hs.rem_pos, hr ▸ hs.rem_eq, ha.trans hs.acc_eq⟩

/-- A payload byte that is not the last leaves the frame open, with one byte more accepted (42_encoder.md R115). -/
theorem OpenFrame.sendMore {s : State} {n : Nat} {d : List Byte} (hs : OpenFrame s n d) (b : Byte)
    (hr : 2 ≤ s.encRem.toNat) :
    OpenFrame (sendFrom [b] .ePayload (s.encRem - 1) (csgAcc s.encAcc b) s) n (d ++ [b]) := by
  have hsub : (s.encRem - 1).toNat = s.encRem.toNat - 1 := by bv_omega
  have hsum := hs.rem_eq
  refine ⟨hs.length_le, ?_, ?_, ?_⟩
  · rw [sendFrom_encRem, hsub]
    omega
  · rw [sendFrom_encRem, hsub, List.length_append, List.length_singleton]
    omega
  · rw [sendFrom_encAcc, csum_snoc, hs.acc_eq]

/-- The last payload byte makes the payload as long as announced (R116). -/
theorem OpenFrame.length_last {s : State} {n : Nat} {d : List Byte} (hs : OpenFrame s n d) (b : Byte)
    (hr : s.encRem = 1) : (d ++ [b]).length = n := by
  have hsum := hs.rem_eq
  have hone : s.encRem.toNat = 1 := congrArg BitVec.toNat hr
  rw [List.length_append, List.length_singleton]
  omega

/-- What an open frame has sent, with its last payload byte and the checksum, is the encoded frame (R116). -/
theorem OpenFrame.encodeFrame_last {s : State} {n : Nat} {d : List Byte} (hs : OpenFrame s n d) (b : Byte)
    (hr : s.encRem = 1) : frameHead n ++ d ++ [b, csgAcc s.encAcc b] = encodeFrame (d ++ [b]) := by
  rw [encodeFrame, hs.length_last b hr, csum_snoc, ← hs.acc_eq]
  simp

/-- The claim speaks of the encoder's registers and the transmit stream alone. -/
theorem TxFramed.of_eq {s t : State} (hs : TxFramed s) (he : t.encState = s.encState) (hr : t.encRem = s.encRem)
    (ha : t.encAcc = s.encAcc) (htx : t.txBytes = s.txBytes) : TxFramed t := by
  obtain ⟨ps, tail, hsent, hlen, hidle, hopen⟩ := hs
  refine ⟨ps, tail, htx.trans hsent, hlen, he ▸ hidle, fun hp => ?_⟩
  obtain ⟨n, d, htail, hframe⟩ := hopen (he ▸ hp)
  exact ⟨n, d, htail, hframe.of_eq hr ha⟩

/-- With no frame open the stream is whole frames. -/
theorem TxFramed.whole {s : State} (hs : TxFramed s) (he : s.encState = .eIdle) :
    ∃ ps : List (List Byte), s.txBytes = (ps.map encodeFrame).flatten ∧ ∀ p ∈ ps, p.length ≤ 251 := by
  obtain ⟨ps, tail, hsent, hlen, hidle, -⟩ := hs
  exact ⟨ps, by rw [hsent, hidle he, List.append_nil], hlen⟩

/-- With a frame open the stream is whole frames, then its header, its length and its payload bytes so far. -/
theorem TxFramed.opened {s : State} (hs : TxFramed s) (he : s.encState = .ePayload) :
    ∃ (ps : List (List Byte)) (n : Nat) (d : List Byte),
      s.txBytes = (ps.map encodeFrame).flatten ++ (frameHead n ++ d) ∧ (∀ p ∈ ps, p.length ≤ 251) ∧
        OpenFrame s n d := by
  obtain ⟨ps, tail, hsent, hlen, -, hopen⟩ := hs
  obtain ⟨n, d, rfl, hframe⟩ := hopen he
  exact ⟨ps, n, d, hsent, hlen, hframe⟩

/-- Whole frames and one frame more, with none open. -/
theorem txFramed_concat {t : State} {ps : List (List Byte)} {p : List Byte}
    (htx : t.txBytes = (ps.map encodeFrame).flatten ++ encodeFrame p) (hps : ∀ q ∈ ps, q.length ≤ 251)
    (hp : p.length ≤ 251) (he : t.encState = .eIdle) : TxFramed t := by
  refine ⟨ps ++ [p], [], by simp [htx], fun q hq => ?_, fun _ => rfl, fun h => by cases he.symm.trans h⟩
  rcases List.mem_append.mp hq with hq | hq
  · exact hps q hq
  · rwa [List.mem_singleton.mp hq]

/-- Whole frames and a frame that is open. -/
theorem txFramed_open {t : State} {ps : List (List Byte)} {n : Nat} {d : List Byte}
    (htx : t.txBytes = (ps.map encodeFrame).flatten ++ (frameHead n ++ d)) (hps : ∀ q ∈ ps, q.length ≤ 251)
    (he : t.encState = .ePayload) (hopen : OpenFrame t n d) : TxFramed t :=
  ⟨ps, _, htx, hps, fun h => (by cases he.symm.trans h), fun _ => ⟨n, d, rfl, hopen⟩⟩

/-- `ENC_START` adds a whole frame, opens one, or is refused (R111 to R114). -/
theorem applyOp_encStart_txFramed {n : Byte} {s t : State} (hs : TxFramed s)
    (h : applyOp (encStartWord n) s = .next t) : TxFramed t := by
  rcases applyOp_encStart_cases h with ⟨-, rfl⟩ | ⟨-, -, rfl⟩ | ⟨he, -, rfl⟩ | ⟨he, h1, h2, rfl⟩
  · exact hs.of_eq rfl rfl rfl (raiseFault_txBytes _ s)
  · exact hs.of_eq rfl rfl rfl (raiseFault_txBytes _ s)
  · obtain ⟨ps, hsent, hps⟩ := hs.whole he
    have hempty : encodeFrame [] = [0x55, 0xAA, 4, 4] := by decide
    exact txFramed_concat (p := []) (by rw [sendFrom_txBytes, hsent, hempty]) hps (Nat.zero_le _) rfl
  · obtain ⟨ps, hsent, hps⟩ := hs.whole he
    exact txFramed_open (d := []) (by rw [sendFrom_txBytes, hsent, List.append_nil]) hps rfl
      ⟨h2, h1, rfl, (csum_nil _).symm⟩

/-- `ENC_DATA` continues the open frame, closes it, or is refused (R115 to R117). -/
theorem applyOp_encData_txFramed {b : Byte} {s t : State} (hs : TxFramed s)
    (h : applyOp (encDataWord b) s = .next t) : TxFramed t := by
  rcases applyOp_encData_cases h with ⟨-, rfl⟩ | ⟨he, hr, rfl⟩ | ⟨he, hr, rfl⟩
  · exact hs.of_eq rfl rfl rfl (raiseFault_txBytes _ s)
  · obtain ⟨ps, n, d, hsent, hps, hopen⟩ := hs.opened he
    exact txFramed_open (by rw [sendFrom_txBytes, hsent, List.append_assoc, List.append_assoc]) hps rfl
      (hopen.sendMore b hr)
  · obtain ⟨ps, n, d, hsent, hps, hopen⟩ := hs.opened he
    have hlen := hopen.length_le
    rw [← hopen.length_last b hr] at hlen
    exact txFramed_concat (by rw [sendFrom_txBytes, hsent, List.append_assoc, hopen.encodeFrame_last b hr]) hps hlen rfl

/-- Every operation but `RESET` keeps the frames of the stream whole. -/
theorem applyOp_txFramed {w : OpWord} {s t : State} (hop : wordOp w ≠ .reset) (hs : TxFramed s)
    (h : applyOp w s = .next t) : TxFramed t := by
  rcases opWord_cases w with ⟨b, rfl⟩ | ⟨n, rfl⟩ | ⟨b, rfl⟩ | ⟨d, rfl⟩
  · obtain ⟨-, rfl⟩ := applyOp_rxWord_next.mp h
    exact hs.of_eq rfl rfl rfl (afterRx_txBytes b s)
  · exact applyOp_encStart_txFramed hs h
  · exact applyOp_encData_txFramed hs h
  · exact absurd (wordOp_opWord _ _) hop

/-- Settles O47, by the rows of the encoder's operations: a frame starts only where none is open. -/
theorem framesNeverInterleave : Obligations.FramesNeverInterleave := by
  intro s t hs hop h _
  rcases step_op_cases h with ⟨-, rfl⟩ | ⟨w, rest, hp, hw⟩
  · exact hs.of_eq rfl rfl rfl rfl
  · exact applyOp_txFramed (s := { s with pending := rest }) (hop w rest hp) (hs.of_eq rfl rfl rfl rfl) hw

/-! ### What is stored in `BUF` (20_memory.md R40) -/

/-- The payload rows store their byte at index `DEC_CNT` (41_decoder.md R97, R98). -/
theorem exec_payload_buf {b : Byte} {s t : State}
    (h : exec (.dRecvMore b) s = .next t ∨ exec (.dRecvLast b) s = .next t) :
    t.buf = Memory.write s.buf s.decCnt.val b := by
  rcases h with h | h
  · obtain ⟨-, rfl⟩ := execDRecvMore_next.mp h
    rfl
  · obtain ⟨-, -, rfl⟩ := execDRecvLast_next.mp h
    rfl

/-- Only in `Receiving` does a received byte reach `BUF`. -/
theorem afterRx_buf {s : State} (b : Byte) (h : s.decState ≠ .receiving) : (afterRx b s).buf = s.buf := by
  cases hst : s.decState with
  | idle => rw [afterRx_idle b hst, emitNothing_eq]
  | header2 => rw [afterRx_header2 b hst, emitNothing_eq]
  | headerOk => rw [afterRx_headerOk b hst, emitNothing_eq, acceptLength_buf]
  | receiving => exact absurd hst h
  | waitCSum => rw [afterRx_waitCSum b hst, emitRx_eq]

/-- The rows that run in `Receiving` are the payload rows (30_encoding.md R70). -/
theorem decState_ne_receiving_of_exec {i : Instr} {s t : State} (hop : i.op = .rx)
    (hi : ∀ b, i ≠ .dRecvMore b ∧ i ≠ .dRecvLast b) (h : exec i s = .next t) : s.decState ≠ .receiving := by
  intro hst
  have hrow := decodeRx_of_exec hop h
  rw [hst, decodeRx] at hrow
  split at hrow
  · exact (hi _).1 hrow.symm
  · exact (hi _).2 hrow.symm

/-- Every row but the payload rows and `RESET` leaves `BUF` as it is. -/
theorem exec_buf {i : Instr} {s t : State} (hi : ∀ b, i ≠ .dRecvMore b ∧ i ≠ .dRecvLast b) (hop : i.op ≠ .reset)
    (h : exec i s = .next t) : t.buf = s.buf := by
  cases hrx : i.op with
  | rx =>
    have hw : applyOp (rxWord i.data) s = .next t := by
      have hw := applyOp_encodeWord h
      rwa [encodeWord, hrx] at hw
    rw [(applyOp_rxWord_next.mp hw).2]
    exact afterRx_buf i.data (decState_ne_receiving_of_exec hrx hi h)
  | encStart => rw [exec_enc_eq (.inl hrx) h]
  | encData => rw [exec_enc_eq (.inr hrx) h]
  | reset => exact absurd hrx hop

/-- Settles O40: the payload rows are one write at `DEC_CNT`, and the other rows leave the whole of `BUF`. -/
theorem bufFrame : Obligations.BufFrame := by
  intro s t hwf
  refine ⟨fun b h => ?_, fun i h hi hop a => by rw [exec_buf hi hop h]⟩
  rw [exec_payload_buf h]
  exact ⟨by rw [Memory.read_write hwf, if_pos rfl], fun a ha => by rw [Memory.read_write hwf, if_neg ha]⟩

/-- Settles O46: every operation keeps the canonical form, and a step is an operation or changes the record alone. -/
theorem bufStaysCanonical : Obligations.BufStaysCanonical := by
  intro s t hs h
  exact step_keeps (P := fun s => Memory.wf s.buf = true) (fun _ _ hs => hs) (fun _ hs => hs)
    (fun _ _ _ hs h => applyOp_bufWf hs h) hs h

/-- Settles O16: at index 251 the row's write names no entry, and item 1 of 10_state.md R26 keeps `DEC_CNT` below. -/
theorem bufWritePastTheEndFaults : Obligations.BufWritePastTheEndFaults := by
  refine ⟨fun s b hst hcnt => ?_, fun s hs hst => Nat.le_of_lt_succ (hs.cnt_lt hst)⟩
  have hlen : s.decLen.toNat ≤ s.decCnt.val + 5 := by omega
  exact (onlyWhen_pos ⟨hst, hlen⟩).trans (receiveByte_fault hcnt)

/-! ### Neither unit reads the other (20_memory.md R49) -/

/-- A received byte's record is read from the decoder's registers. -/
theorem afterRx_out_congr {s t : State} (b : Byte) (h : s.decRegs = t.decRegs) :
    (afterRx b s).out = (afterRx b t).out :=
  congrArg (fun d => ({ rx := (decoderStep d b).2, tx := [], fault := none } : Out)) h

/-- The decoder's registers after a received byte are `decoder_step` of those before (41_decoder.md R103). -/
theorem afterRx_decRegs (b : Byte) (s : State) : (afterRx b s).decRegs = (decoderStep s.decRegs b).1 := rfl

/-- An encoder operation does the same in states that agree on the encoder's registers: it raises the same fault, or
sends the same bytes and leaves the same values in the registers. -/
theorem applyOp_enc_congr {w : OpWord} {s t s' : State} (hop : wordOp w = .encStart ∨ wordOp w = .encData)
    (he : s.encState = t.encState) (hr : s.encRem = t.encRem) (ha : s.encAcc = t.encAcc)
    (h : applyOp w s = .next s') :
    (∃ c, s' = raiseFault c s ∧ applyOp w t = .next (raiseFault c t)) ∨
    ∃ bs e r a, s' = sendFrom bs e r a s ∧ applyOp w t = .next (sendFrom bs e r a t) := by
  rcases opWord_cases w with ⟨b, rfl⟩ | ⟨n, rfl⟩ | ⟨b, rfl⟩ | ⟨d, rfl⟩
  · simp at hop
  · rcases applyOp_encStart_cases h with ⟨hs, rfl⟩ | ⟨hs, hn, rfl⟩ | ⟨hs, rfl, rfl⟩ | ⟨hs, h1, h2, rfl⟩
    · exact .inl ⟨_, rfl, applyOp_encStart_busy n (he ▸ hs)⟩
    · exact .inl ⟨_, rfl, applyOp_encStart_range (he ▸ hs) hn⟩
    · exact .inr ⟨_, _, _, _, rfl, applyOp_encStart_empty (he ▸ hs)⟩
    · exact .inr ⟨_, _, _, _, rfl, applyOp_encStart_open (he ▸ hs) h1 h2⟩
  · rcases applyOp_encData_cases h with ⟨hs, rfl⟩ | ⟨hs, hrem, rfl⟩ | ⟨hs, hrem, rfl⟩
    · exact .inl ⟨_, rfl, applyOp_encData_idle b (he ▸ hs)⟩
    · rw [hr] at hrem ⊢
      rw [ha]
      exact .inr ⟨_, _, _, _, rfl, applyOp_encData_more b (he ▸ hs) hrem⟩
    · rw [ha]
      exact .inr ⟨_, _, _, _, rfl, applyOp_encData_last b (he ▸ hs) (hr ▸ hrem)⟩
  · simp at hop

/-- The record apart, a received byte and a fault commute. -/
theorem afterRx_raiseFault (b : Byte) (c : FaultCode) (s : State) :
    { raiseFault c (afterRx b s) with out := Out.silent } = { afterRx b (raiseFault c s) with out := Out.silent } := by
  simp [afterRx, raiseFault_eq, State.withDecRegs, State.decRegs]

/-- The record apart, a received byte and bytes sent commute. -/
theorem afterRx_sendFrom (b : Byte) (bs : List Byte) (e : EncState) (r a : Byte) (s : State) :
    { sendFrom bs e r a (afterRx b s) with out := Out.silent } =
      { afterRx b (sendFrom bs e r a s) with out := Out.silent } := by
  simp [afterRx, sendFrom, State.withDecRegs, State.decRegs]

/-- Settles O41: `RX` leaves what the encoder's operation is read from, that operation leaves the decoder's registers,
and what the two write lies apart. -/
theorem unitsCommute : Obligations.UnitsCommute := by
  intro s a b d w hop ha hb _ _
  obtain ⟨hc, rfl⟩ := applyOp_rxWord_next.mp ha
  rcases applyOp_enc_congr (s := s) (t := afterRx d s) hop rfl rfl rfl hb with
    ⟨c, rfl, hab⟩ | ⟨bs, e, r, x, rfl, hab⟩
  · exact ⟨_, _, hab, applyOp_rxWord d hc, afterRx_raiseFault d c s, rfl, afterRx_out_congr d rfl⟩
  · exact ⟨_, _, hab, applyOp_rxWord d hc, afterRx_sendFrom d bs e r x s, rfl, afterRx_out_congr d rfl⟩

/-- Settles O42: `RX` is `decoder_step` on the decoder's registers, and an encoder operation does the same wherever the
encoder's registers are the same. -/
theorem unitsDoNotReadEachOther : Obligations.UnitsDoNotReadEachOther := by
  refine ⟨fun s t s' t' b h hs ht _ _ => ?_, fun s t s' t' w hop he hr ha herr hs ht _ _ => ?_⟩
  · obtain ⟨-, rfl⟩ := applyOp_rxWord_next.mp hs
    obtain ⟨-, rfl⟩ := applyOp_rxWord_next.mp ht
    exact ⟨afterRx_out_congr b h, by rw [afterRx_decRegs, afterRx_decRegs, h]⟩
  · rcases applyOp_enc_congr hop he hr ha hs with ⟨c, rfl, ht'⟩ | ⟨bs, e, r, x, rfl, ht'⟩
    · cases ht.symm.trans ht'
      exact ⟨rfl, he, hr, ha, congrArg (setErr · c) herr⟩
    · cases ht.symm.trans ht'
      exact ⟨rfl, rfl, rfl, rfl, herr⟩

end Sys2Proof.Machine
end

section
/-! PROOFS. The encodings of 30_encoding.md: the decoder of keys is the opcode table (O5), decode of encode (O6), keys
and state encodings written out (O1, O2). The one idea of the table's side is `Row.selects_mkKey`: a row's match under
its mask is a match of the three fields, so the unit and the operation leave at most three rows of the table, and the
operand and the registers choose among those. -/

namespace Sys2Proof

/-! ### The fields of a key under a mask (R69) -/

/-- `K[9:8]`, as two bits. -/
def keyOpBits (k : Key) : BitVec 2 := k.extractLsb' 8 2

theorem keyOp_eq_ofBits (k : Key) : keyOp k = OpCode.ofBits (keyOpBits k) := rfl

@[simp] theorem keyOpBits_mkKey (st : BitVec 3) (op : OpCode) (d : Byte) : keyOpBits (mkKey st op d) = op.bits := by
  have h : (keyOp (mkKey st op d)).bits = op.bits := congrArg OpCode.bits (keyOp_mkKey st op d)
  rwa [keyOp_eq_ofBits, OpCode.bits_ofBits] at h

theorem keyState_and (k m : Key) : keyState (k &&& m) = keyState k &&& keyState m := BitVec.extractLsb'_and

theorem keyOpBits_and (k m : Key) : keyOpBits (k &&& m) = keyOpBits k &&& keyOpBits m := BitVec.extractLsb'_and

theorem keyData_and (k m : Key) : keyData (k &&& m) = keyData k &&& keyData m := BitVec.extractLsb'_and

/-- Two keys are the same where their three fields are. -/
theorem key_eq_iff {k k' : Key} :
    k = k' ↔ (keyState k = keyState k' ∧ keyOpBits k = keyOpBits k') ∧ keyData k = keyData k' := by
  refine ⟨fun h => h ▸ ⟨⟨rfl, rfl⟩, rfl⟩, fun ⟨⟨hst, hop⟩, hd⟩ => ?_⟩
  rw [← mkKey_fields k, ← mkKey_fields k', keyOp_eq_ofBits, keyOp_eq_ofBits, hst, hop, hd]

/-! ### The decoder on a key's fields (R69) -/

theorem decode_rx (r : CondRegs) (st : DecState) (d : Byte) :
    decode r (mkKey st.bits .rx d) = .ok (decodeRx r st d) := by
  simp [decode]

theorem decode_encStart (r : CondRegs) (st : EncState) (d : Byte) :
    decode r (mkKey st.bits .encStart d) = .ok (decodeEncStart st d) := by
  simp [decode]

theorem decode_encData (r : CondRegs) (st : EncState) (d : Byte) :
    decode r (mkKey st.bits .encData d) = decodeEncData r st d := by
  simp [decode]

theorem decode_reset (r : CondRegs) (v : BitVec 3) (d : Byte) : decode r (mkKey v .reset d) = .ok (.reset d) := by
  simp [decode]

/-- The state field names no state of the unit that the operation addresses (R67, log entry 9). -/
def namesNoState : OpCode → BitVec 3 → Bool
  | .rx, v => (DecState.ofBits v).isNone
  | .encStart, v => (EncState.ofBits v).isNone
  | .encData, v => (EncState.ofBits v).isNone
  | .reset, _ => false

theorem decode_namesNoState (r : CondRegs) {op : OpCode} {v : BitVec 3} (d : Byte) (h : namesNoState op v = true) :
    ∃ why, decode r (mkKey v op d) = .error why := by
  cases op with
  | rx => exact ⟨.reservedDecState, by simp [decode, Option.isNone_iff_eq_none.mp h]⟩
  | encStart => exact ⟨.reservedEncState, by simp [decode, Option.isNone_iff_eq_none.mp h]⟩
  | encData => exact ⟨.reservedEncState, by simp [decode, Option.isNone_iff_eq_none.mp h]⟩
  | reset => cases h

/-- Every key: of an operation and a state of its unit, of `RESET`, or with a state field that names no state. -/
theorem key_cases (k : Key) :
    (∃ st d, k = mkKey (DecState.bits st) .rx d) ∨ (∃ st d, k = mkKey (EncState.bits st) .encStart d) ∨
    (∃ st d, k = mkKey (EncState.bits st) .encData d) ∨ (∃ v d, k = mkKey v .reset d) ∨
    ∃ v op d, k = mkKey v op d ∧ namesNoState op v = true := by
  rw [← mkKey_fields k]
  generalize keyState k = v, keyOp k = op, keyData k = d
  by_cases h : namesNoState op v = true
  · exact .inr (.inr (.inr (.inr ⟨v, op, d, rfl, h⟩)))
  cases op with
  | rx =>
    obtain ⟨st, hst⟩ := Option.ne_none_iff_exists'.mp (mt Option.isNone_iff_eq_none.mpr h)
    exact .inl ⟨st, d, by rw [DecState.ofBits_eq_some.mp hst]⟩
  | encStart =>
    obtain ⟨st, hst⟩ := Option.ne_none_iff_exists'.mp (mt Option.isNone_iff_eq_none.mpr h)
    exact .inr (.inl ⟨st, d, by rw [EncState.ofBits_eq_some.mp hst]⟩)
  | encData =>
    obtain ⟨st, hst⟩ := Option.ne_none_iff_exists'.mp (mt Option.isNone_iff_eq_none.mpr h)
    exact .inr (.inr (.inl ⟨st, d, by rw [EncState.ofBits_eq_some.mp hst]⟩))
  | reset => exact .inr (.inr (.inr (.inl ⟨v, d, rfl⟩)))

/-! ### Rows by unit, then by operand -/

/-- The row's pattern has this unit state and this operation, as far as its mask reads them. -/
def Row.addresses (st : BitVec 3) (op : OpCode) (row : Row) : Bool :=
  decide (st &&& keyState row.mask = keyState row.pattern ∧ op.bits &&& keyOpBits row.mask = keyOpBits row.pattern)

/-- The row's pattern has this operand, as far as its mask reads it, and the row's condition holds. -/
def Row.accepts (r : CondRegs) (d : Byte) (row : Row) : Bool :=
  decide (d &&& keyData row.mask = keyData row.pattern) && row.cond r d

/-- A row selects a key where it addresses the key's unit and operation and accepts the operand. -/
theorem Row.selects_mkKey (row : Row) (r : CondRegs) (st : BitVec 3) (op : OpCode) (d : Byte) :
    row.selects r (mkKey st op d) = (row.accepts r d && row.addresses st op) := by
  have h : (mkKey st op d &&& row.mask == row.pattern) = decide (mkKey st op d &&& row.mask = row.pattern) := rfl
  rw [Row.selects, h, keyData_mkKey, Row.accepts, Row.addresses]
  simp only [key_eq_iff, keyState_and, keyOpBits_and, keyData_and, keyState_mkKey, keyOpBits_mkKey, keyData_mkKey,
    Bool.decide_and]
  ac_rfl

@[simp] theorem Row.always_eq (r : CondRegs) (d : Byte) : Row.always r d = true := rfl

/-- The mask 0xFF reads the whole operand. -/
@[simp] theorem and_0xFF_eq (d : Byte) : d &&& 0xFF#8 = d := BitVec.and_allOnes

/-- The mask 0xFC reads 0xFC from the operands above 251 alone (R71, `E_START_RANGE`). -/
theorem and_0xFC_eq_iff (d : Byte) : d &&& 0xFC#8 = 0xFC#8 ↔ 251 < d.toNat := by
  revert d
  decide

/-- The instructions of the rows that accept an operand. -/
def acceptedInstrs (r : CondRegs) (d : Byte) (rows : List Row) : List Instr :=
  (rows.filter (Row.accepts r d)).map (fun row => row.build d)

@[simp] theorem acceptedInstrs_nil (r : CondRegs) (d : Byte) : acceptedInstrs r d [] = [] := rfl

@[simp] theorem acceptedInstrs_cons (r : CondRegs) (d : Byte) (row : Row) (rows : List Row) :
    acceptedInstrs r d (row :: rows) =
      if d &&& keyData row.mask = keyData row.pattern ∧ row.cond r d = true then row.build d :: acceptedInstrs r d rows
      else acceptedInstrs r d rows := by
  simp only [acceptedInstrs, List.filter_cons, Row.accepts, Bool.and_eq_true, decide_eq_true_eq]
  split <;> rfl

/-- The instructions of the rows that select a key. -/
def tableInstrs (r : CondRegs) (k : Key) : List Instr :=
  (opcodeTable.filter (fun row => row.selects r k)).map (fun row => row.build (keyData k))

/-- The rows that select a key are those of its unit and operation that accept its operand. -/
theorem tableInstrs_mkKey (r : CondRegs) (st : BitVec 3) (op : OpCode) (d : Byte) :
    tableInstrs r (mkKey st op d) = acceptedInstrs r d (opcodeTable.filter (Row.addresses st op)) := by
  simp only [tableInstrs, acceptedInstrs, Row.selects_mkKey, keyData_mkKey, List.filter_filter]

/-! ### The rows of each unit and operation (R70, R71) -/

/-- Two rows in the table's order for each decoder state. -/
theorem rowsOf_rx (st : DecState) :
    opcodeTable.filter (Row.addresses st.bits .rx) = (rxRows.drop (2 * st.bits.toNat)).take 2 := by
  cases st <;> rfl

/-- No row for a state field that names no state (R72). -/
theorem rowsOf_namesNoState {op : OpCode} {v : BitVec 3} (h : namesNoState op v = true) :
    opcodeTable.filter (Row.addresses v op) = [] := by
  rw [List.filter_eq_nil_iff]
  revert h
  cases op <;> revert v <;> decide

/-- One row for `RESET`, whatever the state bits are (log entry 12). -/
theorem rowsOf_reset (v : BitVec 3) : opcodeTable.filter (Row.addresses v .reset) = encRows.drop 7 := by
  have hv : ∀ row ∈ opcodeTable, row.addresses v .reset = row.addresses 0 .reset := by
    revert v
    decide
  rw [List.filter_congr hv]
  rfl

/-- The two rows of a decoder state share its byte or its registers between them (R70). -/
theorem tableInstrs_rx (r : CondRegs) (st : DecState) (d : Byte) :
    tableInstrs r (mkKey st.bits .rx d) = [decodeRx r st d] := by
  rw [tableInstrs_mkKey, rowsOf_rx]
  cases st with
  | idle => by_cases h : d = 0x55#8 <;> simp [rxRows, DecState.bits, keyData, decodeRx, h]
  | header2 => by_cases h : d = 0xAA#8 <;> simp [rxRows, DecState.bits, keyData, decodeRx, h]
  | headerOk =>
    have hle : d.toNat ≤ 4 ↔ ¬ 5 ≤ d.toNat := by omega
    by_cases h : 5 ≤ d.toNat <;> simp [rxRows, DecState.bits, keyData, decodeRx, hle, h]
  | receiving =>
    by_cases h : r.decCnt.val + 5 < r.decLen.toNat <;>
      simp [rxRows, DecState.bits, keyData, decodeRx, CondRegs.morePayload, h]
  | waitCSum => by_cases h : d = r.decAcc <;> simp [rxRows, DecState.bits, keyData, decodeRx, h]

/-- Three rows share the lengths between them in `EIdle`, one has them all in `EPayload` (R71). -/
theorem tableInstrs_encStart (r : CondRegs) (st : EncState) (d : Byte) :
    tableInstrs r (mkKey st.bits .encStart d) = [decodeEncStart st d] := by
  rw [tableInstrs_mkKey]
  cases st with
  | eIdle =>
    have hrows : opcodeTable.filter (Row.addresses EncState.eIdle.bits .encStart) =
        encRows.take 2 ++ (encRows.drop 3).take 1 := rfl
    rw [hrows]
    by_cases h0 : d = 0#8
    · simp [encRows, keyData, decodeEncStart, h0]
    · have h1 : 1 ≤ d.toNat := Nat.one_le_iff_ne_zero.mpr fun h => h0 (BitVec.eq_of_toNat_eq h)
      by_cases h2 : d.toNat ≤ 251 <;> simp [encRows, keyData, decodeEncStart, and_0xFC_eq_iff, h0, h1, h2]
  | ePayload =>
    have hrows : opcodeTable.filter (Row.addresses EncState.ePayload.bits .encStart) = (encRows.drop 2).take 1 := rfl
    rw [hrows]
    simp [encRows, keyData, decodeEncStart]

/-- The instructions of a decoder's answer: one, or none where the key is rejected. -/
def decodedInstrs : Except DecodeReject Instr → List Instr
  | .ok i => [i]
  | .error _ => []

/-- One row in `EIdle`; two in `EPayload` that leave `ENC_REM = 0` to neither (R71, log entry 8). -/
theorem tableInstrs_encData (r : CondRegs) (st : EncState) (d : Byte) :
    tableInstrs r (mkKey st.bits .encData d) = decodedInstrs (decodeEncData r st d) := by
  rw [tableInstrs_mkKey]
  cases st with
  | eIdle =>
    have hrows : opcodeTable.filter (Row.addresses EncState.eIdle.bits .encData) = (encRows.drop 6).take 1 := rfl
    rw [hrows]
    simp [encRows, keyData, decodeEncData, decodedInstrs]
  | ePayload =>
    have hrows : opcodeTable.filter (Row.addresses EncState.ePayload.bits .encData) = (encRows.drop 4).take 2 := rfl
    have h1 : r.encRem = 1#8 ↔ r.encRem.toNat = 1 := BitVec.toNat_inj.symm
    rw [hrows]
    rcases Nat.lt_trichotomy r.encRem.toNat 1 with h | h | h
    · have h2 : r.encRem.toNat = 0 := by omega
      simp [encRows, keyData, decodeEncData, decodedInstrs, h1, h2]
    · simp [encRows, keyData, decodeEncData, decodedInstrs, h1, h]
    · have h2 : 2 ≤ r.encRem.toNat := h
      have h3 : r.encRem.toNat ≠ 1 := by omega
      simp [encRows, keyData, decodeEncData, decodedInstrs, h2, h3]

theorem tableInstrs_reset (r : CondRegs) (v : BitVec 3) (d : Byte) :
    tableInstrs r (mkKey v .reset d) = [.reset d] := by
  rw [tableInstrs_mkKey, rowsOf_reset]
  simp [encRows, keyData]

/-- The rows that select a key are what the decoder answers. -/
theorem tableInstrs_eq_decode (r : CondRegs) (k : Key) : tableInstrs r k = decodedInstrs (decode r k) := by
  rcases key_cases k with ⟨st, d, rfl⟩ | ⟨st, d, rfl⟩ | ⟨st, d, rfl⟩ | ⟨v, d, rfl⟩ | ⟨v, op, d, rfl, h⟩
  · rw [tableInstrs_rx, decode_rx, decodedInstrs]
  · rw [tableInstrs_encStart, decode_encStart, decodedInstrs]
  · rw [tableInstrs_encData, decode_encData]
  · rw [tableInstrs_reset, decode_reset, decodedInstrs]
  · obtain ⟨why, hwhy⟩ := decode_namesNoState r d h
    rw [tableInstrs_mkKey, rowsOf_namesNoState h, acceptedInstrs_nil, hwhy, decodedInstrs]

/-- Settles O5, by the kinds of key: the rows that address its unit and operation share the operands and the registers
between them as the decoder's branches do. -/
theorem decodeIsTheTable : Obligations.DecodeIsTheTable := by
  intro r k
  exact tableInstrs_eq_decode r k

/-- `ENC_DATA` selects a row unless an open frame expects no byte (R71, log entry 8). -/
theorem decodeEncData_ok_iff {r : CondRegs} {st : EncState} {b : Byte} :
    (∃ i, decodeEncData r st b = .ok i) ↔ (st = .ePayload → 1 ≤ r.encRem.toNat) := by
  cases st with
  | eIdle => simp [decodeEncData]
  | ePayload =>
    have h1 : r.encRem = 1#8 ↔ r.encRem.toNat = 1 := BitVec.toNat_inj.symm
    rcases Nat.lt_trichotomy r.encRem.toNat 1 with h | h | h
    · have h0 : r.encRem.toNat = 0 := by omega
      simp [decodeEncData, h1, h0]
    · simp [decodeEncData, h1, h]
    · have h2 : 2 ≤ r.encRem.toNat := h
      simp [decodeEncData, h2, h.le]

/-- The keys of R69: the state field holds a state of the addressed unit, and an open frame expects a byte. -/
theorem decode_runs {r : CondRegs} {k : Key} (hrx : keyOp k = .rx → ∃ st : DecState, keyState k = st.bits)
    (henc : keyOp k = .encStart ∨ keyOp k = .encData → ∃ st : EncState, keyState k = st.bits)
    (hrem : keyOp k = .encData → keyState k = EncState.ePayload.bits → 1 ≤ r.encRem.toNat) :
    ∃ i, decode r k = .ok i := by
  rw [← mkKey_fields k]
  cases hop : keyOp k with
  | rx =>
    obtain ⟨st, hst⟩ := hrx hop
    exact ⟨_, by rw [hst, decode_rx]⟩
  | encStart =>
    obtain ⟨st, hst⟩ := henc (.inl hop)
    exact ⟨_, by rw [hst, decode_encStart]⟩
  | encData =>
    obtain ⟨st, hst⟩ := henc (.inr hop)
    rw [hst, decode_encData]
    exact decodeEncData_ok_iff.mpr fun he => hrem hop (he ▸ hst)
  | reset => exact ⟨_, decode_reset _ _ _⟩

/-! ### Decode of encode -/

section
variable {r : CondRegs} {i : Instr}

/-- A row of the decoder is what the decoder selects from its state bits and operand (R70). -/
theorem decodeRx_of_cond (hop : i.op = .rx) (hwf : i.wellFormed = true) (hc : i.cond r = true) :
    ∃ st : DecState, i.stateBits = st.bits ∧ decodeRx r st i.data = i := by
  cases i with
  | dIdleSync1 => exact ⟨.idle, rfl, rfl⟩
  | dIdleOther b => exact ⟨.idle, rfl, if_neg (bne_iff_ne.mp hwf)⟩
  | dH2Sync2 => exact ⟨.header2, rfl, rfl⟩
  | dH2Other b => exact ⟨.header2, rfl, if_neg (bne_iff_ne.mp hwf)⟩
  | dHokLenPayload b => exact ⟨.headerOk, rfl, if_pos (of_decide_eq_true hwf)⟩
  | dHokLenEmpty b => exact ⟨.headerOk, rfl, if_neg (Nat.not_le_of_lt (Nat.lt_succ_of_le (of_decide_eq_true hwf)))⟩
  | dRecvMore b => exact ⟨.receiving, rfl, if_pos hc⟩
  | dRecvLast b => exact ⟨.receiving, rfl, if_neg (by simpa [Instr.cond] using hc)⟩
  | dWaitMatch b => exact ⟨.waitCSum, rfl, if_pos (beq_iff_eq.mp hc)⟩
  | dWaitMismatch b => exact ⟨.waitCSum, rfl, if_neg (bne_iff_ne.mp hc)⟩
  | _ => cases hop

/-- A row of `ENC_START` is what the decoder selects from its state bits and operand (R71). -/
theorem decodeEncStart_of_wellFormed (hop : i.op = .encStart) (hwf : i.wellFormed = true) :
    ∃ st : EncState, i.stateBits = st.bits ∧ decodeEncStart st i.data = i := by
  cases i with
  | eStart n =>
    obtain ⟨h1, h2⟩ : 1 ≤ n.toNat ∧ n.toNat ≤ 251 := of_decide_eq_true hwf
    exact ⟨.eIdle, rfl, (if_neg (Machine.ne_zero_of_toNat_pos h1)).trans (if_pos h2)⟩
  | eStartEmpty => exact ⟨.eIdle, rfl, rfl⟩
  | eStartBusy n => exact ⟨.ePayload, rfl, rfl⟩
  | eStartRange n =>
    have h : 252 ≤ n.toNat := of_decide_eq_true hwf
    exact ⟨.eIdle, rfl, (if_neg (Machine.ne_zero_of_toNat_pos (Nat.one_le_of_lt h))).trans
      (if_neg (Nat.not_le_of_lt h))⟩
  | _ => cases hop

/-- A row of `ENC_DATA` is what the decoder selects from its state bits and operand (R71). -/
theorem decodeEncData_of_cond (hop : i.op = .encData) (hc : i.cond r = true) :
    ∃ st : EncState, i.stateBits = st.bits ∧ decodeEncData r st i.data = .ok i := by
  cases i with
  | eDataMore b => exact ⟨.ePayload, rfl, if_pos (of_decide_eq_true hc)⟩
  | eDataLast b =>
    have h : r.encRem = 1 := beq_iff_eq.mp hc
    exact ⟨.ePayload, rfl, (if_neg (by rw [h]; decide)).trans (if_pos h)⟩
  | eDataIdle b => exact ⟨.eIdle, rfl, rfl⟩
  | _ => cases hop

end

/-- Settles O6, by the operation of the row: its state bits name the state in which the decoder selects it. -/
theorem decodeOfEncode : Obligations.DecodeOfEncode := by
  intro r i hwf hc
  cases hop : i.op with
  | rx =>
    obtain ⟨st, hst, hi⟩ := decodeRx_of_cond hop hwf hc
    rw [encode, hst, hop, decode_rx, hi]
  | encStart =>
    obtain ⟨st, hst, hi⟩ := decodeEncStart_of_wellFormed hop hwf
    rw [encode, hst, hop, decode_encStart, hi]
  | encData =>
    obtain ⟨st, hst, hi⟩ := decodeEncData_of_cond hop hc
    rw [encode, hst, hop, decode_encData, hi]
  | reset =>
    rw [encode, hop, decode_reset]
    cases i with
    | reset d => rfl
    | _ => cases hop

/-- Settles O1: the registers play no part in these keys, which the decoder reads as they are. -/
theorem tableKeysDecode : Obligations.TableKeysDecode := by
  intro r
  exact ⟨rfl, rfl, rfl, rfl, rfl, rfl, rfl, rfl, rfl, rfl, rfl, rfl, rfl, rfl⟩

/-- Settles O2: the eight values of `DEC_STATE` are looked at one by one. -/
theorem stateEncodings : Obligations.StateEncodings := by
  refine ⟨rfl, rfl, rfl, rfl, rfl, by decide, fun v st => ?_, rfl, rfl⟩
  rw [DecState.ofBits_eq_some, eq_comm]

end Sys2Proof
end

section
/-! PROOFS. Operation words on the machine: their fields (O3), the keys they form and the one row that selects (O4), a
placed table word (O7), a row runs where it is selected (O10), and the text form (O58). -/

namespace Sys2Proof.Machine

/-! ### Operation words and the keys they form -/

/-- An operation word is what its two fields make. -/
theorem opWord_fields (w : OpWord) : opWord (wordOp w) (wordData w) = w := by
  rcases opWord_cases w with ⟨b, rfl⟩ | ⟨n, rfl⟩ | ⟨b, rfl⟩ | ⟨d, rfl⟩ <;>
    simp [rxWord, encStartWord, encDataWord]

/-- Settles O3: the fields are read back from the word, and `RESET` does the same with every operand. -/
theorem operationWordFields : Obligations.OperationWordFields :=
  ⟨fun _ => ⟨rfl, rfl, rfl, rfl⟩, fun op d => ⟨wordOp_opWord op d, wordData_opWord op d⟩, opWord_fields,
    fun d d' s => (applyOp_reset d s).trans (applyOp_reset d' s).symm⟩

theorem formKey_rxWord (s : State) (b : Byte) :
    formKey s (rxWord b) = mkKey s.decState.bits .rx b := by
  simp [formKey, State.unitBits]

theorem formKey_encStartWord (s : State) (n : Byte) :
    formKey s (encStartWord n) = mkKey s.encState.bits .encStart n := by
  simp [formKey, State.unitBits]

theorem formKey_encDataWord (s : State) (b : Byte) :
    formKey s (encDataWord b) = mkKey s.encState.bits .encData b := by
  simp [formKey, State.unitBits]

/-- Settles O4: the table answers what the decoder does, which is one row for the keys of R69. -/
theorem exactlyOneRowSelects : Obligations.ExactlyOneRowSelects := by
  refine ⟨fun s b => ⟨formKey_rxWord s b, formKey_encStartWord s b, formKey_encDataWord s b⟩,
    fun r k hrx henc hrem => ?_⟩
  obtain ⟨i, hi⟩ := decode_runs hrx henc hrem
  have hrows : tableInstrs r k = [i] := by rw [tableInstrs_eq_decode, hi, decodedInstrs]
  obtain ⟨row, hrow, -⟩ := List.map_eq_singleton_iff.mp hrows
  exact ⟨row, hrow⟩

/-! ### Placing a table word (log entry 11) -/

/-- A decoder state is placed with the registers its rows' conditions read. -/
theorem decodeRx_placeUnit (s : State) (st : DecState) (d : Byte) :
    (placeUnit (mkKey st.bits .rx d) s).decState = st ∧
      decodeRx (placeUnit (mkKey st.bits .rx d) s).condRegs st d = decodeRx tableRegs st d := by
  cases st <;> simp [placeUnit, decodeRx, CondRegs.morePayload]

theorem placeUnit_encStart (s : State) (st : EncState) (n : Byte) :
    (placeUnit (mkKey st.bits .encStart n) s).encState = st := by
  simp [placeUnit]

theorem decodeEncData_placeUnit (s : State) (st : EncState) (b : Byte) :
    (placeUnit (mkKey st.bits .encData b) s).encState = st ∧
      decodeEncData (placeUnit (mkKey st.bits .encData b) s).condRegs st b = decodeEncData tableRegs st b := by
  cases st <;> simp [placeUnit, decodeEncData]

/-- In the placed state the key's word selects the row that the bare key stands for. -/
theorem selectRow_placeUnit {k : Key} {i : Instr} (s : State) (h : decode tableRegs k = .ok i) :
    selectRow (placeUnit k s) (keyWord k) = .ok i := by
  rcases key_cases k with ⟨st, d, rfl⟩ | ⟨st, d, rfl⟩ | ⟨st, d, rfl⟩ | ⟨v, d, rfl⟩ | ⟨v, op, d, rfl, hv⟩
  · obtain ⟨hst, hrow⟩ := decodeRx_placeUnit s st d
    rw [keyWord_mkKey, selectRow_opWord_rx, hst, hrow, ← decode_rx, h]
  · rw [keyWord_mkKey, selectRow_opWord_encStart, placeUnit_encStart, ← decode_encStart tableRegs, h]
  · obtain ⟨hst, hrow⟩ := decodeEncData_placeUnit s st d
    rw [keyWord_mkKey, selectRow_opWord_encData, hst, hrow, ← decode_encData, h]
  · rw [keyWord_mkKey, selectRow_reset, ← decode_reset tableRegs v, h]
  · obtain ⟨why, hwhy⟩ := decode_namesNoState tableRegs d hv
    cases hwhy.symm.trans h

theorem decodeTableWord_eq_some {nbits w : Nat} {i : Instr} :
    decodeTableWord nbits w = some i ↔ ∃ k, tableKey nbits w = some k ∧ decode tableRegs k = .ok i := by
  unfold decodeTableWord
  cases tableKey nbits w with
  | none => simp
  | some k => cases hk : decode tableRegs k <;> simp [hk]

/-- Settles O7: the placed state's queue holds the key's word alone, and that word selects the row. -/
theorem placedWordRuns : Obligations.PlacedWordRuns := by
  intro s nbits w i h
  obtain ⟨k, hk, hi⟩ := decodeTableWord_eq_some.mp h
  have hs : s.withFetchWord nbits w = { placeUnit k s with pending := [keyWord k] } := by
    rw [State.withFetchWord, placeTableWord, hk]
  rw [hs, step_cons rfl]
  exact applyOp_ok (selectRow_placeUnit s hi)

/-! ### A row runs where it is selected -/

/-- With `DEC_CNT = 251` no length byte asks for more, so the last payload row is the one selected (R70). -/
theorem selectRow_rxWord_past_end {s : State} (b : Byte) (h : s.decState = .receiving) (hc : s.decCnt.val = 251) :
    selectRow s (rxWord b) = .ok (.dRecvLast b) := by
  have hlast : s.condRegs.morePayload = false := morePayload_false_iff.mpr (by rw [condRegs_decCnt]; omega)
  rw [selectRow_rxWord, h, decodeRx, if_neg (by simp [hlast])]

/-- Settles O10: a row that runs is the one its word selects; `D_RECV_LAST` past the end of `BUF` alone does not. -/
theorem rowRunsWhereSelected : Obligations.RowRunsWhereSelected := by
  refine ⟨fun i s t h => selectRow_of_exec h, fun s w i h => ?_⟩
  rw [← applyOp_ok h]
  rcases opWord_cases w with ⟨b, rfl⟩ | ⟨n, rfl⟩ | ⟨b, rfl⟩ | ⟨d, rfl⟩
  · by_cases hc : s.decState = .receiving → s.decCnt.val < 251
    · exact .inl ⟨_, applyOp_rxWord b hc⟩
    · obtain ⟨hst, hcnt⟩ := Classical.not_imp.mp hc
      have hcnt : s.decCnt.val = 251 := by omega
      refine .inr ⟨b, ?_, hcnt, applyOp_rxWord_past_end b hst hcnt⟩
      exact Except.ok.inj (h.symm.trans (selectRow_rxWord_past_end b hst hcnt))
  · obtain ⟨t, ht, -⟩ := applyOp_encStart_runs n s
    exact .inl ⟨t, ht⟩
  · rw [selectRow_encDataWord] at h
    exact .inl (applyOp_encData_runs b (decodeEncData_ok_iff.mp ⟨i, h⟩))
  · exact .inl ⟨_, applyOp_reset d s⟩

/-- Settles O58: the four lines are assembled, and the pseudo-operations expand as they are defined. -/
theorem assemblyOfTheSpec : Obligations.AssemblyOfTheSpec :=
  ⟨by decide, by decide, by decide, by decide, fun _ => ⟨rfl, rfl⟩⟩

end Sys2Proof.Machine
end

section
/-! PROOFS. The checksum generator (40_checksum.md): the micro-operations (O23), the closed form (O24), and which changes
of a frame the check detects (O25). -/

namespace Sys2Proof.Machine

/-! ### Sums of bytes -/

theorem byteSum_eq_sum (p : List Byte) : byteSum p = (p.map BitVec.toNat).sum := by
  induction p with
  | nil => rfl
  | cons b p ih => rw [byteSum_cons, ih, List.map_cons, List.sum_cons]

theorem byteSum_perm {p q : List Byte} (h : p.Perm q) : byteSum p = byteSum q := by
  rw [byteSum_eq_sum, byteSum_eq_sum, (h.map BitVec.toNat).sum_eq]

/-- Replacing one byte exchanges its value in the sum for the new one's. -/
theorem byteSum_set {p : List Byte} {i : Nat} (h : i < p.length) (v : Byte) :
    byteSum (p.set i v) + p[i].toNat = byteSum p + v.toNat := by
  induction p generalizing i with
  | nil => cases h
  | cons b p ih =>
    cases i with
    | zero => simp only [List.set_cons_zero, List.getElem_cons_zero, byteSum_cons]; omega
    | succ i =>
      have hi := ih (Nat.lt_of_succ_lt_succ h)
      simp only [List.set_cons_succ, List.getElem_cons_succ, byteSum_cons]
      omega

/-! ### The closed form -/

/-- Two payloads have one checksum, whatever the length byte, exactly if their sums agree modulo 256. -/
theorem csum_eq_csum_iff {len : Byte} {p q : List Byte} :
    csum len p = csum len q ↔ byteSum p % 256 = byteSum q % 256 := by
  rw [← BitVec.toNat_inj, csum_toNat, csum_toNat]
  omega

theorem csum_perm (len : Byte) {p q : List Byte} (h : p.Perm q) : csum len p = csum len q :=
  csum_eq_csum_iff.mpr (congrArg (· % 256) (byteSum_perm h))

/-- Wrapping at every addition comes to the one reduction at the end (R82). -/
theorem foldl_csgAcc (len : Byte) (p : List Byte) : p.foldl csgAcc len = csum len p := by
  induction p using List.reverseRecOn with
  | nil => exact (csum_nil len).symm
  | append_singleton p b ih => rw [List.foldl_concat, ih, csum_snoc]

/-- Settles O24: the fold by induction from the payload's end, the order by the sum of a permuted list. -/
theorem checksumClosedForm : Obligations.ChecksumClosedForm :=
  ⟨fun len p => ⟨by rw [csgSeed_eq, foldl_csgAcc], by rw [csum_toNat, byteSum_eq_sum]⟩,
    fun len _ _ h => csum_perm len h⟩

/-! ### What the check detects -/

/-- Two bytes that differ do so by less than 256, so one changed byte changes the sum modulo 256 (R84). -/
theorem csum_set_ne (len : Byte) {p : List Byte} {i : Nat} {v : Byte} (h : i < p.length) (hv : p[i] ≠ v) :
    csum len (p.set i v) ≠ csum len p := by
  intro heq
  have hmod := csum_eq_csum_iff.mp heq
  have hsum := byteSum_set h v
  have hold := p[i].isLt
  have hnew := v.isLt
  exact hv (BitVec.eq_of_toNat_eq (by omega))

/-- Settles O25: a changed byte changes the sum, or the byte compared; equal sums modulo 256 pass. -/
theorem checksumDetects : Obligations.ChecksumDetects :=
  ⟨fun len _ _ _ h hv => csgMatch_false_iff.mpr (csum_set_ne len h hv),
    fun _ _ _ hr => csgMatch_false_iff.mpr hr.symm,
    fun len _ _ h => csgMatch_iff.mpr (csum_perm len h.symm),
    fun _ _ _ h => csgMatch_iff.mpr (csum_eq_csum_iff.mpr h.symm)⟩

/-! ### One bit flipped -/

/-- A byte with one bit flipped differs from the byte in that bit. -/
theorem xor_twoPow_ne (b : Byte) {k : Nat} (hk : k < 8) : b ^^^ BitVec.twoPow 8 k ≠ b := by
  intro h
  have hbit := congrArg (·.getLsbD k) h
  simp [hk] at hbit

/-- Settles O23: the value of each micro-operation, and the match of a byte with one bit flipped. -/
theorem checksumMicroOps : Obligations.ChecksumMicroOps :=
  ⟨csgSeed_eq, csgAcc_toNat, fun _ _ => csgMatch_iff,
    fun acc _ hk => csgMatch_false_iff.mpr (xor_twoPow_ne acc hk).symm⟩

end Sys2Proof.Machine
end

section
/-! PROOFS. The frame decoder (41_decoder.md): its ten rows (O12 to O15, O17), `decoder_step` (O18) and its totality
(O19), what a byte means by position (O20), waiting without a timeout (O21, O9), and no step stops (O11). -/

namespace Sys2Proof.Machine

/-! ### No step stops -/

/-- Settles O11: the head of the queue is one operation, and none stops the block where the invariants hold. -/
theorem noStepStops : Obligations.NoStepStops := by
  intro s hd he
  cases hp : s.pending with
  | nil => exact ⟨_, step_nil hp⟩
  | cons w rest =>
    rw [step_cons hp]
    exact applyOp_runs (s := { s with pending := rest }) (hd.of_decRegs rfl) (he.of_eq rfl rfl rfl rfl) w

/-! ### One received byte (R91 to R100) -/

/-- Settles O12, by the two rows of `Idle`. -/
theorem idleRows : Obligations.IdleRows := by
  intro s hst
  exact ⟨execDIdleSync1_next.mpr ⟨hst, rfl⟩, fun b hb => execDIdleOther_next.mpr ⟨⟨hst, hb⟩, rfl⟩⟩

/-- Settles O13, by the two rows of `Header2`. -/
theorem headerTwoRows : Obligations.HeaderTwoRows := by
  intro s hst
  exact ⟨execDH2Sync2_next.mpr ⟨hst, rfl⟩, fun b hb => execDH2Other_next.mpr ⟨⟨hst, hb⟩, rfl⟩⟩

/-- Settles O14, by the two rows of `HeaderOk`. -/
theorem lengthRows : Obligations.LengthRows := by
  intro s b hst
  exact ⟨fun hb => execDHokLenPayload_next.mpr ⟨⟨hst, hb⟩, rfl⟩,
    fun hb => execDHokLenEmpty_next.mpr ⟨⟨hst, hb⟩, rfl⟩⟩

/-- Settles O15, by the two rows of `Receiving`: the count is `DEC_CNT + 1`, since the row's condition or the premise
keeps `DEC_CNT` below 251. -/
theorem payloadRows : Obligations.PayloadRows := by
  intro s b hst
  refine ⟨fun hmore => ?_, fun hlast hcnt => ⟨fun hd => ?_, ?_⟩⟩
  · have hsucc := cntSucc_val (c := s.decCnt) (by omega)
    refine ⟨cntSucc s.decCnt, hsucc, by omega, execDRecvMore_next.mpr ⟨⟨hst, hmore⟩, ?_⟩⟩
    rw [← hst]
    rfl
  · have hlt := hd.receiving hst
    omega
  · have hlt : s.decCnt.val < 251 := Nat.lt_succ_of_le hcnt
    exact ⟨cntSucc s.decCnt, cntSucc_val hlt, execDRecvLast_next.mpr ⟨⟨hst, hlast⟩, hlt, rfl⟩⟩

/-- Settles O17, by the two rows of `WaitCSum`. -/
theorem checksumRows : Obligations.ChecksumRows := by
  intro s b hst
  exact ⟨fun hb => execDWaitMatch_next.mpr ⟨⟨hst, hb.symm⟩, rfl⟩,
    fun hb => execDWaitMismatch_next.mpr ⟨⟨hst, Ne.symm hb⟩, rfl⟩⟩

/-! ### `decoder_step` (R103) and its totality (R102) -/

/-- Settles O18: the ten rows together are `decoder_step`, whose event joins the record and the trace. -/
theorem rxIsDecoderStep : Obligations.RxIsDecoderStep := by
  intro s b hc
  rw [applyOp_rxWord b fun hst => Nat.lt_succ_of_le (hc hst), afterRx, emitRx_eq]
  rfl

/-- A byte brings an event exactly in `WaitCSum` (R99, R100). -/
theorem afterRx_event_iff (b : Byte) (s : State) : (afterRx b s).out.rx ≠ .none ↔ s.decState = .waitCSum := by
  rw [afterRx_out_rx]
  refine ⟨fun h => Classical.byContradiction fun hst => h (if_neg hst), fun hst => ?_⟩
  rw [if_pos hst]
  split <;> exact RxEvent.noConfusion

/-- An `RX` row that answers a next state is the row its byte selects, and does what the byte does. -/
theorem exec_rx_next {i : Instr} {s t : State} (hop : i.op = .rx) (h : exec i s = .next t) :
    decodeRx s.condRegs s.decState i.data = i ∧ t = afterRx i.data s := by
  have hw := applyOp_encodeWord h
  rw [encodeWord, hop] at hw
  exact ⟨decodeRx_of_exec hop h, (applyOp_rxWord_next.mp hw).2⟩

/-- Of the rows that a byte's word stands for, one alone answers a next state (R102). -/
theorem exists_unique_rx_row {s : State} (b : Byte) (hc : s.decState = .receiving → s.decCnt.val < 251) :
    ∃ i, (encodeWord i = rxWord b ∧ ∃ t, exec i s = .next t) ∧
      ∀ j, encodeWord j = rxWord b → (∃ t, exec j s = .next t) → j = i := by
  have hsel := selectRow_rxWord s b
  refine ⟨_, ⟨encodeWord_of_selectRow hsel, afterRx b s, ?_⟩, fun j hj ⟨t, ht⟩ => ?_⟩
  · rw [← applyOp_ok hsel, applyOp_rxWord b hc]
  · have hselj := selectRow_of_exec ht
    rw [hj, hsel] at hselj
    exact (Except.ok.inj hselj).symm

/-- A frame with the longest length byte, one payload byte before its end. -/
def beforeLastByte : State :=
  { State.reset with
    decState := .receiving
    decLen := 255
    decCnt := 250
    decAcc := csum 255 (Memory.slice [] 250) }

theorem payload_beforeLastByte : beforeLastByte.payload = Memory.slice [] 250 := rfl

theorem decInv_beforeLastByte : DecInv beforeLastByte :=
  ⟨rfl, fun _ => by decide, fun h => (by cases h), fun _ => congrArg (csum 255) payload_beforeLastByte.symm⟩

/-- Settles O19: the invariants keep `DEC_CNT` at an index of `BUF`, where every byte has its row, and 250 is met. -/
theorem decoderIsTotal : Obligations.DecoderIsTotal := by
  refine ⟨fun s b rest hd hp => ⟨?_, exists_unique_rx_row b hd.cnt_lt, fun hst => Nat.le_of_lt_succ (hd.cnt_lt hst)⟩,
    beforeLastByte, decInv_beforeLastByte, rfl, rfl⟩
  rw [step_cons hp, applyOp_rxWord (s := { s with pending := rest }) b hd.cnt_lt]
  exact ⟨_, rfl, rfl, rfl, rfl, afterRx_event_iff b _⟩

/-! ### A byte means what its position says (R101) -/

/-- The row a byte takes is read from the decoder's registers: of those that conditions read, `ENC_REM` alone is the
encoder's. -/
theorem decodeRx_of_decRegs {s t : State} (b : Byte) (h : s.decRegs = t.decRegs) :
    decodeRx s.condRegs s.decState b = decodeRx t.condRegs t.decState b := by
  rw [State.decRegs, State.decRegs, DecRegs.mk.injEq] at h
  obtain ⟨hst, hlen, hacc, hcnt, -⟩ := h
  have hregs : s.condRegs = { t.condRegs with encRem := s.encRem } := by rw [State.condRegs, hlen, hacc, hcnt]
  rw [hregs, hst]
  rfl

/-- The decoder's state diagram: each row with the state it leaves and the one it enters. -/
inductive RxEdge : DecState → Instr → DecState → Prop where
  | idleSync1 : RxEdge .idle .dIdleSync1 .header2
  | idleOther (b : Byte) : RxEdge .idle (.dIdleOther b) .idle
  | h2Sync2 : RxEdge .header2 .dH2Sync2 .headerOk
  | h2Other (b : Byte) : RxEdge .header2 (.dH2Other b) .idle
  | lenPayload (b : Byte) : RxEdge .headerOk (.dHokLenPayload b) .receiving
  | lenEmpty (b : Byte) : RxEdge .headerOk (.dHokLenEmpty b) .waitCSum
  | recvMore (b : Byte) : RxEdge .receiving (.dRecvMore b) .receiving
  | recvLast (b : Byte) : RxEdge .receiving (.dRecvLast b) .waitCSum
  | waitMatch (b : Byte) : RxEdge .waitCSum (.dWaitMatch b) .idle
  | waitMismatch (b : Byte) : RxEdge .waitCSum (.dWaitMismatch b) .idle

/-- An `RX` row that answers a next state follows its edge of the diagram. -/
theorem exec_rxEdge {i : Instr} {s t : State} (hop : i.op = .rx) (h : exec i s = .next t) :
    RxEdge s.decState i t.decState := by
  cases i with
  | dIdleSync1 => obtain ⟨hst, rfl⟩ := execDIdleSync1_next.mp h; rw [hst]; exact .idleSync1
  | dIdleOther b => obtain ⟨⟨hst, -⟩, rfl⟩ := (execDIdleOther_next (b := b)).mp h; rw [hst]; exact .idleOther b
  | dH2Sync2 => obtain ⟨hst, rfl⟩ := execDH2Sync2_next.mp h; rw [hst]; exact .h2Sync2
  | dH2Other b => obtain ⟨⟨hst, -⟩, rfl⟩ := (execDH2Other_next (b := b)).mp h; rw [hst]; exact .h2Other b
  | dHokLenPayload b => obtain ⟨⟨hst, -⟩, rfl⟩ := execDHokLenPayload_next.mp h; rw [hst]; exact .lenPayload b
  | dHokLenEmpty b => obtain ⟨⟨hst, -⟩, rfl⟩ := execDHokLenEmpty_next.mp h; rw [hst]; exact .lenEmpty b
  | dRecvMore b => obtain ⟨⟨hst, -⟩, rfl⟩ := execDRecvMore_next.mp h; rw [hst]; exact .recvMore b
  | dRecvLast b => obtain ⟨⟨hst, -⟩, -, rfl⟩ := execDRecvLast_next.mp h; rw [hst]; exact .recvLast b
  | dWaitMatch b => obtain ⟨⟨hst, -⟩, rfl⟩ := execDWaitMatch_next.mp h; rw [hst]; exact .waitMatch b
  | dWaitMismatch b => obtain ⟨⟨hst, -⟩, rfl⟩ := execDWaitMismatch_next.mp h; rw [hst]; exact .waitMismatch b
  | _ => cases hop

section
variable {d : DecState} {i : Instr}

theorem RxEdge.into_header2 (h : RxEdge d i .header2) : d = .idle ∧ i = .dIdleSync1 := by
  cases h
  exact ⟨rfl, rfl⟩

theorem RxEdge.into_headerOk (h : RxEdge d i .headerOk) : d = .header2 ∧ i = .dH2Sync2 := by
  cases h
  exact ⟨rfl, rfl⟩

theorem RxEdge.back_to_idle (h : RxEdge d i .idle) (hd : d ≠ .idle) :
    ∃ b, i = .dH2Other b ∨ i = .dWaitMatch b ∨ i = .dWaitMismatch b := by
  cases h with
  | idleOther b => exact absurd rfl hd
  | h2Other b => exact ⟨b, .inl rfl⟩
  | waitMatch b => exact ⟨b, .inr (.inl rfl)⟩
  | waitMismatch b => exact ⟨b, .inr (.inr rfl)⟩

end

/-- Settles O20: selection reads the decoder's registers, and the rows follow the decoder's state diagram. -/
theorem decoderIsPositional : Obligations.DecoderIsPositional := by
  refine ⟨fun s t b h => ?_, fun i s t hop h => ?_⟩
  · rw [selectRow_rxWord, selectRow_rxWord, decodeRx_of_decRegs b h]
  · have hedge := exec_rxEdge hop h
    refine ⟨fun ht => ?_, fun ht => ?_, fun hs ht => ?_⟩
    · exact (ht ▸ hedge).into_header2
    · exact (ht ▸ hedge).into_headerOk
    · exact (ht ▸ hedge).back_to_idle hs

/-! ### Waiting (R104) -/

/-- Settles O9: with an empty queue the step is the idle step, whose record is silent. -/
theorem idleStepWaits : Obligations.IdleStepWaits := by
  intro s hp
  exact step_nil hp

/-- An operation but `RX` and `RESET` leaves the decoder's registers alone (20_memory.md R49). -/
theorem applyOp_decRegs {w : OpWord} {s t : State} (hrx : wordOp w ≠ .rx) (hreset : wordOp w ≠ .reset)
    (h : applyOp w s = .next t) : t.decRegs = s.decRegs := by
  rcases applyOp_cases h with ⟨b, rfl, -⟩ | ⟨-, ⟨c, rfl⟩ | ⟨bs, e, r, a, rfl⟩⟩ | ⟨hop, -⟩
  · exact absurd (wordOp_rxWord b) hrx
  · rfl
  · rfl
  · exact absurd hop hreset

/-- A step queues nothing. -/
theorem step_pending {s t : State} (h : step s = .next t) : t.pending = s.pending.tail := by
  rcases step_op_cases h with ⟨hp, rfl⟩ | ⟨w, rest, hp, hw⟩
  · rw [hp]
    rfl
  · rw [(applyOp_pending [] hw).2, hp]
    rfl

/-- A step leaves the decoder's registers alone where no queued operation is `RX` or `RESET`. -/
theorem step_decRegs {s t : State} (hq : ∀ w ∈ s.pending, wordOp w ≠ .rx ∧ wordOp w ≠ .reset)
    (h : step s = .next t) : t.decRegs = s.decRegs := by
  rcases step_op_cases h with ⟨-, rfl⟩ | ⟨w, rest, hp, hw⟩
  · rfl
  · obtain ⟨hrx, hreset⟩ := hq w (hp ▸ List.mem_cons_self)
    exact applyOp_decRegs (s := { s with pending := rest }) hrx hreset hw

/-- Settles O21, by induction on the number of steps. -/
theorem decoderHasNoTimeout : Obligations.DecoderHasNoTimeout := by
  intro k s t hq hrun _
  induction k generalizing s with
  | zero => rw [next_inj.mp hrun]
  | succ k ih =>
    obtain ⟨u, hu, hrest⟩ := run_succ_next hrun
    have hqu : ∀ w ∈ u.pending, wordOp w ≠ .rx ∧ wordOp w ≠ .reset := by
      rw [step_pending hu]
      exact fun w hw => hq w (List.mem_of_mem_tail hw)
    exact (ih u hqu hrest).trans (step_decRegs hq hu)

end Sys2Proof.Machine
end

section
/-! PROOFS. A payload is delivered only after its frame was received (O52, 41_decoder.md R106). The idea: since an
`Idle` state of the run, the decoder received exactly the bytes that its registers say it did
(`runOps_receivedSince`). -/

namespace Sys2Proof.Machine

/-! ### What the registers say was received -/

/-- The bytes of the current frame received so far, as the decoder's registers tell. -/
def State.frameSoFar (s : State) : List Byte :=
  match s.decState with
  | .idle => []
  | .header2 => [Config.sync1]
  | .headerOk => [Config.sync1, Config.sync2]
  | .receiving | .waitCSum => Config.sync1 :: Config.sync2 :: s.decLen :: s.payload

section
variable {s : State}

theorem frameSoFar_idle (h : s.decState = .idle) : s.frameSoFar = [] := by rw [State.frameSoFar, h]
theorem frameSoFar_header2 (h : s.decState = .header2) : s.frameSoFar = [Config.sync1] := by
  rw [State.frameSoFar, h]
theorem frameSoFar_headerOk (h : s.decState = .headerOk) : s.frameSoFar = [Config.sync1, Config.sync2] := by
  rw [State.frameSoFar, h]
theorem frameSoFar_inFrame (h : s.decState = .receiving ∨ s.decState = .waitCSum) :
    s.frameSoFar = Config.sync1 :: Config.sync2 :: s.decLen :: s.payload := by
  rcases h with h | h <;> rw [State.frameSoFar, h]

end

/-- The bytes are told by the decoder's registers alone. -/
theorem frameSoFar_of_decRegs {s t : State} (h : t.decRegs = s.decRegs) : t.frameSoFar = s.frameSoFar := by
  rw [State.decRegs, State.decRegs, DecRegs.mk.injEq] at h
  obtain ⟨hst, hlen, -, hcnt, hbuf⟩ := h
  rw [State.frameSoFar, State.frameSoFar, State.payload, State.payload, hst, hlen, hcnt, hbuf]

/-- A payload byte stored is the payload's next byte. -/
theorem payload_storeByte {s : State} (b : Byte) (hwf : Memory.wf s.buf = true) (hc : s.decCnt.val < 251) :
    (storeByte b s).payload = s.payload ++ [b] := by
  simp only [State.payload, storeByte, cntSucc_val hc]
  exact Memory.slice_write hwf

/-- A byte that does not take the decoder to `Idle` is the frame's next byte. -/
theorem frameSoFar_afterRx {s : State} (hd : DecInv s) (b : Byte) (hne : (afterRx b s).decState ≠ .idle) :
    (afterRx b s).frameSoFar = s.frameSoFar ++ [b] := by
  cases hst : s.decState with
  | idle =>
    rw [afterRx_idle b hst, emitNothing_eq] at hne ⊢
    have hb : b = Config.sync1 := Classical.byContradiction fun hb => hne (if_neg hb)
    rw [frameSoFar_header2 (if_pos hb), frameSoFar_idle hst, hb]
    rfl
  | header2 =>
    rw [afterRx_header2 b hst, emitNothing_eq] at hne ⊢
    have hb : b = Config.sync2 := Classical.byContradiction fun hb => hne (if_neg hb)
    rw [frameSoFar_headerOk (if_pos hb), frameSoFar_header2 hst, hb]
    rfl
  | headerOk =>
    rw [afterRx_headerOk b hst, emitNothing_eq, frameSoFar_headerOk hst]
    by_cases hb : b.toNat ≤ 4
    · exact frameSoFar_inFrame (.inr (if_pos hb))
    · exact frameSoFar_inFrame (.inl (if_neg hb))
  | receiving =>
    have hpayload := payload_storeByte b hd.bufWf (hd.cnt_lt hst)
    have hin : (storeByte b s).decState = .receiving ∨ (storeByte b s).decState = .waitCSum := by
      unfold storeByte
      by_cases hlast : s.decLen.toNat ≤ s.decCnt.val + 5
      · exact .inr (if_pos hlast)
      · exact .inl (if_neg hlast)
    calc (afterRx b s).frameSoFar
      _ = (storeByte b s).frameSoFar := by rw [afterRx_receiving b hst]; exact frameSoFar_of_decRegs rfl
      _ = Config.sync1 :: Config.sync2 :: s.decLen :: (s.payload ++ [b]) := by
        rw [frameSoFar_inFrame hin, hpayload]
        rfl
      _ = s.frameSoFar ++ [b] := by rw [frameSoFar_inFrame (.inl hst)]; rfl
  | waitCSum =>
    rw [afterRx_waitCSum b hst] at hne
    exact absurd rfl hne

/-! ### What a run received -/

/-- The run of `ws` goes through an `Idle` state, since when it received exactly `bytes`, with no `RESET`. -/
def ReceivedSince (ws : List OpWord) (bytes : List Byte) : Prop :=
  ∃ (before since : List OpWord) (u : State), ws = before ++ since ∧ runOps before = .next u ∧ u.decState = .idle ∧
    (∀ w ∈ since, wordOp w ≠ .reset) ∧ rxBytesOf since = bytes

theorem receivedSince_of_idle {ws : List OpWord} {s : State} (h : runOps ws = .next s) (hst : s.decState = .idle) :
    ReceivedSince ws [] :=
  ⟨ws, [], s, (List.append_nil ws).symm, h, hst, fun _ hw => absurd hw List.not_mem_nil, rfl⟩

theorem rxBytesOf_append (vs ws : List OpWord) : rxBytesOf (vs ++ ws) = rxBytesOf vs ++ rxBytesOf ws := by
  rw [rxBytesOf, List.filter_append, List.map_append]
  rfl

theorem rxBytesOf_rxWord (b : Byte) : rxBytesOf [rxWord b] = [b] := by
  simp [rxBytesOf]

theorem rxBytesOf_of_ne_rx {w : OpWord} (h : wordOp w ≠ .rx) : rxBytesOf [w] = [] := by
  simp [rxBytesOf, h]

/-- One operation more. -/
theorem ReceivedSince.concat {ws : List OpWord} {w : OpWord} {bytes : List Byte} (h : ReceivedSince ws bytes)
    (hw : wordOp w ≠ .reset) : ReceivedSince (ws ++ [w]) (bytes ++ rxBytesOf [w]) := by
  obtain ⟨before, since, u, rfl, hrun, hidle, hno, rfl⟩ := h
  refine ⟨before, since ++ [w], u, List.append_assoc _ _ _, hrun, hidle, fun v hv => ?_, rxBytesOf_append _ _⟩
  rcases List.mem_append.mp hv with hv | hv
  · exact hno v hv
  · rwa [List.mem_singleton.mp hv]

/-- The decoder's invariants hold at the end of every run. -/
theorem runOps_decInv {ws : List OpWord} {s : State} (h : runOps ws = .next s) : DecInv s :=
  applyOps_keeps applyOp_decInv invariantsAtReset.1 (runOps_iff.mp h)

/-- At the end of every run the decoder received what its registers say, since an `Idle` state. -/
theorem runOps_receivedSince {ws : List OpWord} {s : State} (h : runOps ws = .next s) :
    ReceivedSince ws s.frameSoFar := by
  induction ws using List.reverseRecOn generalizing s with
  | nil =>
    have hs : s = State.reset := next_inj.mp (runOps_iff.mp h)
    subst hs
    exact receivedSince_of_idle h rfl
  | append_singleton ws w ih =>
    obtain ⟨u, hu, hw⟩ := runOps_concat_next.mp h
    by_cases hst : s.decState = .idle
    · rw [frameSoFar_idle hst]
      exact receivedSince_of_idle h hst
    have hreset : wordOp w ≠ .reset := fun hop => hst (by rw [applyOp_reset_next hop hw]; rfl)
    have hsince := (ih hu).concat hreset
    rcases opWord_cases w with ⟨b, rfl⟩ | hother
    · obtain ⟨-, rfl⟩ := applyOp_rxWord_next.mp hw
      rwa [rxBytesOf_rxWord, ← frameSoFar_afterRx (runOps_decInv hu) b hst] at hsince
    · have hrx : wordOp w ≠ .rx := by
        rcases hother with ⟨n, rfl⟩ | ⟨b, rfl⟩ | ⟨d, rfl⟩ <;> simp
      rwa [rxBytesOf_of_ne_rx hrx, List.append_nil, ← frameSoFar_of_decRegs (applyOp_decRegs hrx hreset hw)] at hsince

/-! ### The delivery -/

/-- A frame is delivered by a byte in `WaitCSum` equal to `DEC_ACC` (R99). -/
theorem applyOp_delivers {w : OpWord} {s t : State} {p : List Byte} (h : applyOp w s = .next t)
    (hp : t.out.rx = .frame p) : w = rxWord s.decAcc ∧ s.decState = .waitCSum ∧ s.payload = p := by
  obtain ⟨hop, hev⟩ := applyOp_event h (by rw [hp]; exact RxEvent.noConfusion)
  have hw : rxWord (wordData w) = w := by rw [rxWord, ← hop, opWord_fields]
  rw [← hw] at h
  obtain ⟨-, rfl⟩ := applyOp_rxWord_next.mp h
  have hst : s.decState = .waitCSum := (afterRx_event_iff _ s).mp (by rw [hp]; exact RxEvent.noConfusion)
  rw [hp] at hev
  split at hev
  · next hb => exact ⟨by rw [← hb, hw], hst, (RxEvent.frame.inj hev).symm⟩
  · cases hev

/-- Settles O52: before its last operation the run received the frame but its checksum, which `DEC_ACC` is. -/
theorem deliveredPayloadWasFramed : Obligations.DeliveredPayloadWasFramed := by
  refine claimOfRuns_of_forall fun ws t hrun p hp => ?_
  rcases List.eq_nil_or_concat' ws with rfl | ⟨ws, w, rfl⟩
  · rw [next_inj.mp (runOps_iff.mp hrun)] at hp
    cases hp
  · obtain ⟨s, hs, hw⟩ := runOps_concat_next.mp hrun
    obtain ⟨rfl, hst, rfl⟩ := applyOp_delivers hw hp
    have hd := runOps_decInv hs
    have hsince := (runOps_receivedSince hs).concat (w := rxWord s.decAcc) (by simp)
    rw [rxBytesOf_rxWord, frameSoFar_inFrame (.inr hst), hd.sum (.inr hst)] at hsince
    obtain ⟨before, since, u, hws, hu, hidle, hno, hbytes⟩ := hsince
    refine ⟨before, since, u, s.decLen, ?_, hu, hidle, hno, hbytes, ?_⟩
    · rw [← hws, hd.sum (.inr hst)]
    · rw [State.payload, Memory.slice_length, hd.waiting hst]

end Sys2Proof.Machine
end

section
/-! PROOFS. The frame encoder (42_encoder.md): its rows (O26, O27, O28), the shape of a frame (O30), the stream of a
frame (O49), and what the decoder makes of an encoded frame (O50) and of one whose checksum is corrupt (O51). -/

namespace Sys2Proof.Machine

/-! ### The encoder's rows (R111 to R117) -/

/-- Settles O26, by the two rows that start a frame in `EIdle`. -/
theorem encStartRows : Obligations.EncStartRows := by
  intro s he
  exact ⟨fun n h1 h2 => ⟨selectRow_encStart_open he h1 h2, execEStart_next.mpr ⟨⟨he, h1, h2⟩, rfl⟩⟩,
    selectRow_encStart_empty he, execEStartEmpty_next.mpr ⟨he, rfl⟩⟩

/-- Counting down does not wrap while a byte is expected. -/
theorem sub_one_eq_ofNat {r : Byte} (h : 1 ≤ r.toNat) : r - 1 = BitVec.ofNat 8 (r.toNat - 1) := by
  bv_omega

/-- Settles O27, by the two rows of an open frame. -/
theorem encDataRows : Obligations.EncDataRows := by
  intro s b he
  refine ⟨fun hr => ⟨selectRow_encData_more b he hr, execEDataMore_next.mpr ⟨⟨he, hr⟩, ?_⟩⟩, fun hr => ?_⟩
  · rw [sub_one_eq_ofNat (Nat.le_of_succ_le hr)]
    rfl
  · have hone : s.encRem = 1 := BitVec.eq_of_toNat_eq hr
    exact ⟨selectRow_encData_last b he hone, execEDataLast_next.mpr ⟨⟨he, hone⟩, rfl⟩⟩

/-- Settles O28, by the three rows that raise a fault and everything that raising one changes. -/
theorem encFaultRows : Obligations.EncFaultRows := by
  intro s n
  have hbusy := raiseFault_eq .encBusy s
  have hrange := raiseFault_eq .encLenRange s
  have hidle := raiseFault_eq .encIdle s
  exact ⟨fun he => ⟨selectRow_encStart_busy n he, (execEStartBusy_next (n := n)).mpr ⟨he, hbusy.symm⟩⟩,
    fun he hn => ⟨selectRow_encStart_range he hn, execEStartRange_next.mpr ⟨⟨he, hn⟩, hrange.symm⟩⟩,
    fun he => ⟨selectRow_encData_idle n he, (execEDataIdle_next (b := n)).mpr ⟨he, hidle.symm⟩⟩⟩

/-! ### An encoded frame (R110) -/

@[simp] theorem frameHead_length (n : Nat) : (frameHead n).length = 3 := rfl

@[simp] theorem encodeFrame_length (p : List Byte) : (encodeFrame p).length = p.length + 4 := by
  rw [encodeFrame, List.length_append, List.length_append, frameHead_length, List.length_singleton]
  omega

/-- Settles O30: the length byte does not wrap up to 251, and above that the operation is refused. -/
theorem encodedFrameShape : Obligations.EncodedFrameShape := by
  refine ⟨fun p hp => ⟨lenByte p.length, csum (lenByte p.length) p, rfl, lenByte_toNat hp, encodeFrame_length p, ?_⟩,
    fun s n he hn => ⟨_, applyOp_encStart_range he hn, rfl, rfl⟩⟩
  rw [csum_toNat, lenByte_toNat hp, byteSum_eq_sum]

/-! ### Queued operations -/

/-- As many steps as there are operations at the head of the queue are those operations, with the rest queued. -/
theorem run_of_pending {ws rest : List OpWord} {s t : State} (hp : s.pending = ws ++ rest)
    (h : applyOps ws { s with pending := rest } = .next t) :
    Host.Core.run Sys2Proof.core ws.length s = .next t := by
  rw [← pending_self hp]
  exact run_queued_iff.mpr h

/-! ### The stream of a frame (R118) -/

/-- From `s` to `t` the encoder sent `bytes` and raised no fault. -/
structure Sent (bytes : List Byte) (s t : State) : Prop where
  txBytes : t.txBytes = s.txBytes ++ bytes
  faultLog : t.faultLog = s.faultLog
  err : t.err = s.err
  pending : t.pending = s.pending

theorem sent_sendFrom (bytes : List Byte) (e : EncState) (r a : Byte) (s : State) :
    Sent bytes s (sendFrom bytes e r a s) :=
  ⟨rfl, sendFrom_faultLog bytes e r a s, rfl, rfl⟩

theorem Sent.trans {bs cs : List Byte} {s t u : State} (h : Sent bs s t) (h' : Sent cs t u) : Sent (bs ++ cs) s u :=
  ⟨by rw [h'.txBytes, h.txBytes, List.append_assoc], h'.faultLog.trans h.faultLog, h'.err.trans h.err,
    h'.pending.trans h.pending⟩

/-- The payload bytes that an open frame still expects close it: they are sent, then the checksum of the whole payload
(R115, R116). -/
theorem applyOps_closeFrame {n : Nat} {d q : List Byte} {s : State} (he : s.encState = .ePayload)
    (hopen : OpenFrame s n d) (hq : d.length + q.length = n) :
    ∃ t, applyOps (q.map encDataWord) s = .next t ∧ t.encState = .eIdle ∧
      Sent (q ++ [csum (lenByte n) (d ++ q)]) s t := by
  induction q generalizing s d with
  | nil =>
    have hrem := hopen.rem_eq
    have hpos := hopen.rem_pos
    rw [List.length_nil] at hq
    omega
  | cons b q ih =>
    have hrem : s.encRem.toNat = q.length + 1 := by
      rw [← hopen.rem_eq, List.length_cons] at hq
      omega
    cases q with
    | nil =>
      have hone : s.encRem = 1 := BitVec.eq_of_toNat_eq hrem
      refine ⟨_, applyOps_cons_next.mpr ⟨_, applyOp_encData_last b he hone, rfl⟩, rfl, ?_⟩
      rw [csum_snoc, ← hopen.acc_eq]
      exact sent_sendFrom _ _ _ _ s
    | cons c q =>
      have hmore : 2 ≤ s.encRem.toNat := by
        rw [hrem, List.length_cons]
        omega
      have hq' : (d ++ [b]).length + (c :: q).length = n := by
        rw [← hq, List.length_append, List.length_singleton, List.length_cons (a := b)]
        omega
      obtain ⟨t, ht, hidle, hsent⟩ := ih rfl (hopen.sendMore b hmore) hq'
      refine ⟨t, applyOps_cons_next.mpr ⟨_, applyOp_encData_more b he hmore, ht⟩, hidle, ?_⟩
      rw [List.append_assoc] at hsent
      exact (sent_sendFrom [b] _ _ _ s).trans hsent

/-- The operations of a frame send the encoded frame and leave no frame open (R118). -/
theorem applyOps_encFrame {p : List Byte} {s : State} (hp : p.length ≤ 251) (he : s.encState = .eIdle) :
    ∃ t, applyOps (Asm.encFrame p) s = .next t ∧ t.encState = .eIdle ∧ Sent (encodeFrame p) s t := by
  have hlen : (BitVec.ofNat 8 p.length).toNat = p.length := by
    rw [BitVec.toNat_ofNat]
    omega
  cases p with
  | nil => exact ⟨_, applyOps_cons_next.mpr ⟨_, applyOp_encStart_empty he, rfl⟩, rfl, sent_sendFrom _ _ _ _ s⟩
  | cons b p =>
    have h1 : 1 ≤ (BitVec.ofNat 8 (b :: p).length).toNat := by
      rw [hlen]
      exact Nat.succ_pos _
    have hstart := applyOp_encStart_open he h1 (hlen.symm ▸ hp)
    rw [hlen] at hstart
    have hopen : OpenFrame (sendFrom (frameHead (b :: p).length) .ePayload (BitVec.ofNat 8 (b :: p).length)
        (lenByte (b :: p).length) s) (b :: p).length [] := ⟨hp, h1, hlen, (csum_nil _).symm⟩
    obtain ⟨t, ht, hidle, hsent⟩ := applyOps_closeFrame rfl hopen (Nat.zero_add _)
    refine ⟨t, applyOps_cons_next.mpr ⟨_, hstart, ht⟩, hidle, ?_⟩
    rw [encodeFrame, List.append_assoc]
    exact (sent_sendFrom _ _ _ _ s).trans hsent

/-- Settles O49: the queued operations are those of the frame `p`. -/
theorem streamEqualsEncode : Obligations.StreamEqualsEncode := by
  intro s p rest _ hp he hpend
  obtain ⟨t, ht, hidle, hsent⟩ := applyOps_encFrame (s := { s with pending := rest }) hp he
  have hrun := run_of_pending (ws := Asm.encFrame p) hpend ht
  rw [Asm.encFrame, List.length_cons, List.length_map] at hrun
  exact ⟨t, hrun, hsent.txBytes, hidle, hsent.pending, hsent.faultLog, hsent.err⟩

/-! ### Bytes received one after another -/

/-- The state after `decoder_step` on each of the bytes in order. -/
def afterBytes (bytes : List Byte) (s : State) : State := bytes.foldl (fun s b => afterRx b s) s

@[simp] theorem afterBytes_cons (b : Byte) (bs : List Byte) (s : State) :
    afterBytes (b :: bs) s = afterBytes bs (afterRx b s) := rfl

@[simp] theorem afterBytes_pending (bs : List Byte) (s : State) : (afterBytes bs s).pending = s.pending := by
  induction bs generalizing s with
  | nil => rfl
  | cons b bs ih => exact ih (afterRx b s)

@[simp] theorem afterBytes_faultLog (bs : List Byte) (s : State) : (afterBytes bs s).faultLog = s.faultLog := by
  induction bs generalizing s with
  | nil => rfl
  | cons b bs ih => exact (ih (afterRx b s)).trans (afterRx_faultLog b s)

theorem DecInv.afterBytes {s : State} (hd : DecInv s) (bs : List Byte) : DecInv (afterBytes bs s) := by
  induction bs generalizing s with
  | nil => exact hd
  | cons b bs ih => exact ih (hd.afterRx b)

/-- The invariants keep every byte at an index of `BUF`, so none stops the model. -/
theorem applyOps_rxWords {s : State} (hd : DecInv s) (bs : List Byte) :
    applyOps (bs.map rxWord) s = .next (afterBytes bs s) := by
  induction bs generalizing s with
  | nil => rfl
  | cons b bs ih => exact applyOps_cons_next.mpr ⟨_, applyOp_rxWord b hd.cnt_lt, ih (hd.afterRx b)⟩

/-! ### A frame received up to its checksum -/

theorem emitNothing_rxEvents (s : State) : (emitNothing s).rxEvents = s.rxEvents := List.append_nil _

/-- The decoder received the length and the payload `p` of a frame, and the next byte is the checksum. -/
structure AwaitsChecksum (p : List Byte) (s : State) : Prop where
  inv : DecInv s
  state : s.decState = .waitCSum
  len : s.decLen = lenByte p.length
  payload : s.payload = p

/-- What the decoder computed is the checksum of the frame (40_checksum.md R82). -/
theorem AwaitsChecksum.acc {p : List Byte} {s : State} (h : AwaitsChecksum p s) :
    s.decAcc = csum (lenByte p.length) p := by
  rw [h.inv.sum (.inr h.state), h.len, h.payload]

/-- The payload bytes that the length byte still announces bring the decoder to `WaitCSum`, with no event
(41_decoder.md R97, R98). -/
theorem afterBytes_receiving {q : List Byte} {s : State} (hd : DecInv s) (hst : s.decState = .receiving)
    (hq : s.decCnt.val + 4 + q.length = s.decLen.toNat) :
    (afterBytes q s).decState = .waitCSum ∧ (afterBytes q s).decLen = s.decLen ∧
      (afterBytes q s).payload = s.payload ++ q ∧ (afterBytes q s).rxEvents = s.rxEvents := by
  induction q generalizing s with
  | nil =>
    have hmore := hd.receiving hst
    rw [List.length_nil] at hq
    omega
  | cons b q ih =>
    have hcnt := hd.cnt_lt hst
    have hpayload := payload_storeByte b hd.bufWf hcnt
    have hinv := hd.afterRx b
    rw [List.length_cons] at hq
    rw [afterRx_receiving b hst] at hinv
    rw [afterBytes_cons, afterRx_receiving b hst]
    cases q with
    | nil =>
      rw [List.length_nil] at hq
      exact ⟨if_pos (by omega), rfl, hpayload, emitNothing_rxEvents _⟩
    | cons c q =>
      rw [List.length_cons] at hq
      have hmore : ¬ s.decLen.toNat ≤ s.decCnt.val + 5 := by omega
      have hcnt' : (emitNothing (storeByte b s)).decCnt.val + 4 + (c :: q).length = s.decLen.toNat := by
        rw [emitNothing_eq, storeByte, cntSucc_val hcnt, List.length_cons]
        omega
      obtain ⟨hstate, hlen, hpay, hev⟩ := ih hinv (if_neg hmore) hcnt'
      refine ⟨hstate, hlen, ?_, hev.trans (emitNothing_rxEvents _)⟩
      rw [List.append_cons, ← hpayload]
      exact hpay

/-- The two header bytes and the length byte of a frame: the decoder is in the frame, with no payload byte so far
(R91, R93, R95, R96). -/
theorem afterBytes_frameHead {n : Nat} {s : State} (hn : n ≤ 251) (hst : s.decState = .idle) :
    afterBytes (frameHead n) s =
      emitNothing (acceptLength (lenByte n) (if n = 0 then .waitCSum else .receiving) s) := by
  have hlen : (lenByte n).toNat ≤ 4 ↔ n = 0 := by
    rw [lenByte_toNat hn]
    omega
  calc afterBytes (frameHead n) s
    _ = afterRx (lenByte n) (afterRx Config.sync2 (afterRx Config.sync1 s)) := rfl
    _ = afterRx (lenByte n) (afterRx Config.sync2 (emitNothing { s with decState := .header2 })) := by
      rw [afterRx_idle _ hst, if_pos rfl]
    _ = afterRx (lenByte n) (emitNothing { s with decState := .headerOk }) := by
      rw [afterRx_header2 (s := emitNothing { s with decState := .header2 }) _ rfl, if_pos rfl]
      simp only [emitNothing_eq]
    _ = emitNothing (acceptLength (lenByte n) (if n = 0 then .waitCSum else .receiving) s) := by
      rw [afterRx_headerOk (s := emitNothing { s with decState := .headerOk }) _ rfl]
      simp only [hlen, emitNothing_eq, acceptLength]

/-- A frame but its checksum, received from `Idle`, brings no event. -/
theorem afterBytes_untilChecksum {p : List Byte} {s : State} (hp : p.length ≤ 251) (hd : DecInv s)
    (hst : s.decState = .idle) :
    AwaitsChecksum p (afterBytes (frameHead p.length ++ p) s) ∧
      (afterBytes (frameHead p.length ++ p) s).rxEvents = s.rxEvents := by
  have hinv := hd.afterBytes (frameHead p.length ++ p)
  have hhead := hd.afterBytes (frameHead p.length)
  have happ : afterBytes (frameHead p.length ++ p) s = afterBytes p (afterBytes (frameHead p.length) s) :=
    List.foldl_append
  rw [happ] at hinv ⊢
  rw [afterBytes_frameHead hp hst] at hinv hhead ⊢
  cases p with
  | nil => exact ⟨⟨hinv, rfl, rfl, rfl⟩, emitNothing_rxEvents _⟩
  | cons b p =>
    have hcnt : 0 + 4 + (b :: p).length = (lenByte (b :: p).length).toNat := by
      rw [lenByte_toNat hp]
      omega
    obtain ⟨hstate, hlen, hpay, hev⟩ := afterBytes_receiving hhead rfl hcnt
    exact ⟨⟨hinv, hstate, hlen, hpay⟩, hev.trans (emitNothing_rxEvents _)⟩

/-- The same of the queue: up to its checksum a frame brings no event and no fault. -/
theorem run_untilChecksum {p : List Byte} {rest : List OpWord} {s : State} (hp : p.length ≤ 251) (hd : DecInv s)
    (hst : s.decState = .idle) (hpend : s.pending = (frameHead p.length ++ p).map rxWord ++ rest) :
    ∃ u, Host.Core.run Sys2Proof.core (p.length + 3) s = .next u ∧ AwaitsChecksum p u ∧
      u.rxEvents = s.rxEvents ∧ u.faultLog = s.faultLog ∧ u.pending = rest := by
  have hd' : DecInv { s with pending := rest } := hd.of_decRegs rfl
  obtain ⟨hawait, hev⟩ := afterBytes_untilChecksum hp hd' hst
  have hrun := run_of_pending hpend (applyOps_rxWords hd' _)
  rw [List.length_map, List.length_append, frameHead_length, Nat.add_comm] at hrun
  exact ⟨_, hrun, hawait, hev, afterBytes_faultLog _ _, afterBytes_pending _ _⟩

/-! ### The checksum -/

/-- What a decoder that received the payload `p` makes of the checksum byte (R99, R100). -/
def checksumEvent (p : List Byte) (c : Byte) : RxEvent :=
  if c = csum (lenByte p.length) p then .frame p else .csumMismatch (csum (lenByte p.length) p) c

theorem checksumEvent_csum (p : List Byte) : checksumEvent p (csum (lenByte p.length) p) = .frame p := if_pos rfl

theorem checksumEvent_of_ne {p : List Byte} {c : Byte} (h : c ≠ csum (lenByte p.length) p) :
    checksumEvent p c = .csumMismatch (csum (lenByte p.length) p) c := if_neg h

/-- The checksum byte of a frame brings its event and takes the decoder to `Idle`. -/
theorem step_checksum {p : List Byte} {c : Byte} {rest : List OpWord} {u : State} (h : AwaitsChecksum p u)
    (hpend : u.pending = rxWord c :: rest) :
    ∃ t, step u = .next t ∧ DecInv t ∧ t.decState = .idle ∧ t.out.rx = checksumEvent p c ∧
      t.rxEvents = u.rxEvents ++ [checksumEvent p c] ∧ t.faultLog = u.faultLog ∧ t.pending = rest := by
  have hd : DecInv { u with pending := rest } := h.inv.of_decRegs rfl
  have hst : ({ u with pending := rest } : State).decState = .waitCSum := h.state
  have hout : (afterRx c { u with pending := rest }).out.rx = checksumEvent p c := by
    rw [afterRx_out_rx, if_pos hst, checksumEvent, ← h.acc, ← h.payload]
    rfl
  refine ⟨_, (step_cons hpend).trans (applyOp_rxWord c hd.cnt_lt), hd.afterRx c, ?_, hout, ?_,
    afterRx_faultLog c _, rfl⟩
  · rw [afterRx_waitCSum c hst, emitRx_eq]
  · rw [afterRx_rxEvents, hout, checksumEvent]
    split <;> rfl

/-- A frame received from `Idle`, its checksum right or wrong, brings the one event and takes the decoder back to
`Idle`, with no fault. -/
theorem run_frame {p : List Byte} {c : Byte} {rest : List OpWord} {s : State} (hp : p.length ≤ 251) (hd : DecInv s)
    (hst : s.decState = .idle) (hpend : s.pending = (frameHead p.length ++ p ++ [c]).map rxWord ++ rest) :
    ∃ t, Host.Core.run Sys2Proof.core (p.length + 4) s = .next t ∧ DecInv t ∧ t.decState = .idle ∧
      t.rxEvents = s.rxEvents ++ [checksumEvent p c] ∧ t.faultLog = s.faultLog ∧ t.pending = rest := by
  rw [List.map_append, List.append_assoc] at hpend
  obtain ⟨u, hrun, hawait, hev, hlog, hpend'⟩ := run_untilChecksum hp hd hst hpend
  obtain ⟨t, hstep, hdt, hidle, -, hevt, hlogt, hpendt⟩ := step_checksum hawait hpend'
  exact ⟨t, (run_add (k := 1) hrun).trans (run_succ_of_next hstep), hdt, hidle, hev ▸ hevt, hlogt.trans hlog, hpendt⟩

/-! ### The decoder on encoded frames (R119, R120) -/

/-- Outside a frame the canonical `BUF` is all that the decoder's invariants ask for. -/
theorem decInv_idle {s : State} (hwf : Memory.wf s.buf = true) (hst : s.decState = .idle) : DecInv s :=
  decInv_outside_frame hwf (by simp [hst]) (by simp [hst])

/-- Settles O50: the frame up to its checksum brings no event, and the checksum is what the decoder computed. -/
theorem roundTrip : Obligations.RoundTrip := by
  intro s p rest _ hp hst hwf hpend
  rw [encodeFrame, List.map_append, List.append_assoc] at hpend
  obtain ⟨u, hrun, hawait, hev, hlog, hpend'⟩ := run_untilChecksum hp (decInv_idle hwf hst) hst hpend
  obtain ⟨t, hstep, -, hidle, hout, hevt, hlogt, hpendt⟩ := step_checksum hawait hpend'
  rw [checksumEvent_csum] at hout hevt
  exact ⟨u, t, hrun, hev, hstep, hout, hev ▸ hevt, hlogt.trans hlog, hidle, hpendt⟩

/-- Settles O51: the flipped bit makes the first frame's event a mismatch, and its state at the end is one from which
the second frame is delivered. -/
theorem corruptFrameRejectedThenResync : Obligations.CorruptFrameRejectedThenResync := by
  intro s p q k rest _ hp hq hk hst hwf hpend
  rw [encodeFrame, List.dropLast_concat] at hpend
  obtain ⟨u, hrun, hd, hidle, hev, hlog, hpend'⟩ := run_frame hp (decInv_idle hwf hst) hst hpend
  obtain ⟨t, hrunt, -, hidlet, hevt, hlogt, hpendt⟩ := run_frame hq hd hidle hpend'
  rw [checksumEvent_of_ne (xor_twoPow_ne _ hk)] at hev
  rw [checksumEvent_csum] at hevt
  exact ⟨u, t, hrun, hidle, hev, hrunt, hidlet, hevt, hlogt.trans hlog, hpendt⟩

end Sys2Proof.Machine
end

section
/-! PROOFS. The control operation `RESET` (43_control.md): its row, its effect and the `rst` port that drives it (O37). -/

namespace Sys2Proof.Machine

/-! ### Who clears `ERR` (10_state.md R30) -/

/-- Every bit that was set is set after a fault. -/
theorem setErr_getLsbD {err : BitVec 3} {k : Nat} (c : FaultCode) (h : err.getLsbD k = true) :
    (setErr err c).getLsbD k = true := by
  rw [setErr, BitVec.getLsbD_or, h, Bool.true_or]

/-- An operation but `RESET` clears no bit of `ERR`: it leaves `ERR` alone or takes a fault. -/
theorem applyOp_err_sticky {w : OpWord} {s t : State} (hop : wordOp w ≠ .reset) (h : applyOp w s = .next t) {k : Nat}
    (hk : s.err.getLsbD k = true) : t.err.getLsbD k = true := by
  rcases applyOp_cases h with ⟨b, -, rfl⟩ | ⟨-, ⟨c, rfl⟩ | ⟨bs, e, r, a, rfl⟩⟩ | ⟨hr, -⟩
  · rwa [afterRx_err]
  · exact setErr_getLsbD c hk
  · rwa [sendFrom_err]
  · exact absurd hr hop

/-! ### `RESET` (R125) -/

/-- In the reset state `RESET` changes nothing that an output depends on: outside a frame of either unit, the registers
that take free values are not read before they are written. -/
theorem sameVisible_reset {s : State} (hd : s.decState = .idle) (he : s.encState = .eIdle) (herr : s.err = 0) :
    SameVisible { resetRegisters s with out := Out.silent } { s with out := Out.silent } :=
  ⟨sameDecoder_outside_frame hd.symm (by simp) (by simp), ⟨he.symm, herr.symm, fun h => (by cases h)⟩,
    rfl, rfl, rfl, rfl, rfl⟩

/-- Settles O37: the row of `RESET` is selected whatever the state and the operand, what it does is `resetRegisters`
with a silent record, and of the other operations none clears a bit of `ERR`. -/
theorem resetRow : Obligations.ResetRow := by
  refine ⟨fun s d => ⟨selectRow_reset s d, _, (execReset_next (d := d)).mpr rfl, ?_⟩, fun p i hrst => if_pos hrst,
    fun i s t hop h k hk => ?_⟩
  · exact ⟨rfl, rfl, rfl, rfl, rfl, rfl, rfl, rfl, fun d' => rfl, sameVisible_reset⟩
  · exact applyOp_err_sticky ((wordOp_encodeWord i).trans_ne hop) (applyOp_encodeWord h) hk

end Sys2Proof.Machine
end

section
/-! PROOFS. Faults (60_exceptions.md): a fault and nothing else (O31), priority of faults and inputs (O36), and what a
run with no fault in its log says of the host and of the transmit stream (O59, O60). -/

namespace Sys2Proof.Machine

/-! ### A fault and nothing else (R132) -/

/-- An operation that reports a fault is `raiseFault` of it. -/
theorem applyOp_eq_raiseFault {w : OpWord} {s t : State} {c : FaultCode} (h : applyOp w s = .next t)
    (hc : t.out.fault = some c) : t = raiseFault c s := by
  rcases applyOp_cases h with ⟨b, -, rfl⟩ | ⟨-, ⟨d, rfl⟩ | ⟨bs, e, r, a, rfl⟩⟩ | ⟨-, rfl⟩
  · cases hc
  · cases hc
    rfl
  · cases hc
  · cases hc

/-- Settles O31: a fault is taken by `raiseFault` alone, whatever the row. -/
theorem faultHasNoOtherEffect : Obligations.FaultHasNoOtherEffect := by
  intro i s t c h hc
  rw [applyOp_eq_raiseFault (applyOp_encodeWord h) hc, raiseFault_eq]
  cases c <;> rfl

/-! ### Priority (R134) -/

/-- No operation reports an event and a fault. -/
theorem applyOp_event_or_fault {w : OpWord} {s t : State} (h : applyOp w s = .next t) :
    t.out.rx = .none ∨ t.out.fault = none := by
  rcases applyOp_out_cases h with ⟨-, -, hf⟩ | ⟨-, hrx, -⟩ | ⟨-, ho⟩
  · exact .inr hf
  · exact .inl hrx
  · exact .inl (congrArg Out.rx ho)

/-- With `rst` the registers after the edge are the same whatever the other inputs (log entry 14). -/
theorem after_of_rst {p : PortState} {i j : PortIn} (c : State) (hi : i.rst = true) (hj : j.rst = true) :
    p.after i c = p.after j c := by
  have htakes : p.takes i = p.takes j := by simp [PortState.takes, hi, hj]
  simp only [PortState.after, htakes]

theorem applyOps_resetWord (s : State) : applyOps [resetWord] s = .next (emitNothing (resetRegisters s)) :=
  applyOps_cons_next.mpr ⟨_, applyOp_reset 0 s, rfl⟩

/-- A cycle with `rst` resets the block. -/
theorem clock_of_rst {p : PortState} {i : PortIn} (hi : i.rst = true) :
    p.clock i = .next (p.after i (emitNothing (resetRegisters p.core))) := by
  have hacc : p.accepted i = [resetWord] := if_pos hi
  exact clock_next.mpr ⟨_, hacc ▸ applyOps_resetWord p.core, rfl⟩

/-- A cycle without `rst` in which both units are offered something accepts the byte, then the encoder operation. -/
theorem accepted_of_both {p : PortState} {i : PortIn} (hrst : i.rst = false) (hrx : i.rxValid = true)
    (henc : i.encValid = true) (hready : p.encReady = true) : p.accepted i = [rxWord i.rxData, i.encWord] := by
  simp [PortState.accepted, PortIn.rxWords, PortState.encWords, hrst, hrx, henc, hready]

/-- A received byte and then an encoder operation give what the other order gives, the last record apart: neither reads
what the other writes (20_memory.md R49). -/
theorem applyOps_rx_enc_swap {b : Byte} {w : OpWord} {s t : State} (hop : wordOp w = .encStart ∨ wordOp w = .encData)
    (h : applyOps [rxWord b, w] s = .next t) : ∃ u, applyOps [w, rxWord b] s = .next u ∧
      { t with out := Out.silent } = { u with out := Out.silent } := by
  obtain ⟨a, hrx, ha⟩ := applyOps_cons_next.mp h
  obtain ⟨c, hw, hct⟩ := applyOps_cons_next.mp ha
  cases hct
  obtain ⟨hcnt, rfl⟩ := applyOp_rxWord_next.mp hrx
  rcases applyOp_enc_congr (s := afterRx b s) (t := s) hop rfl rfl rfl hw with
    ⟨c, rfl, hs⟩ | ⟨bs, e, r, x, rfl, hs⟩
  · exact ⟨_, applyOps_cons_next.mpr ⟨_, hs, applyOps_cons_next.mpr ⟨_, applyOp_rxWord b hcnt, rfl⟩⟩,
      afterRx_raiseFault b c s⟩
  · exact ⟨_, applyOps_cons_next.mpr ⟨_, hs, applyOps_cons_next.mpr ⟨_, applyOp_rxWord b hcnt, rfl⟩⟩,
      afterRx_sendFrom b bs e r x s⟩

/-- Settles O36: the record has one writer, an open frame refuses every start, `rst` hides the other inputs, and the
units do not read each other. -/
theorem faultAndPortPriority : Obligations.FaultAndPortPriority := by
  refine ⟨fun s t w h => applyOp_event_or_fault h, fun s n he => ?_, fun p i j hi hj => ?_,
    fun p q i w hrst hrx henc hready hw h => ?_⟩
  · exact ⟨_, applyOp_encStart_busy n he, rfl, rfl⟩
  · refine ⟨?_, _, applyOps_resetWord p.core, clock_of_rst hi⟩
    rw [clock_of_rst hi, clock_of_rst hj, after_of_rst _ hi hj]
  · have hword : w = i.encWord := hw
    obtain ⟨c, hc, rfl⟩ := clock_next.mp h
    rw [accepted_of_both hrst hrx henc hready, ← hword] at hc
    exact ⟨hc, fun _ => applyOps_rx_enc_swap (hword ▸ wordOp_encWord i) hc⟩

/-! ### The host's duties at one operation (70_reset_and_hazards.md R143) -/

/-- The host keeps its encoder duties with the operation `w` in the state `s`. -/
def KeepsDuty (w : OpWord) (s : State) : Prop :=
  (wordOp w = .encStart → s.encState = .eIdle ∧ (wordData w).toNat ≤ 251) ∧
    (wordOp w = .encData → s.encState = .ePayload)

/-- The duties are what the conditions of the three faults leave. -/
theorem keepsDuty_iff {w : OpWord} {s : State} : KeepsDuty w s ↔ ∀ c, ¬ Violates w s c := by
  constructor
  · rintro ⟨hstart, hdata⟩ c hc
    cases c with
    | encBusy =>
      obtain ⟨hop, he⟩ := hc
      cases he.symm.trans (hstart hop).1
    | encLenRange =>
      obtain ⟨hop, -, hn⟩ := hc
      exact Nat.not_lt_of_le (hstart hop).2 hn
    | encIdle =>
      obtain ⟨hop, he⟩ := hc
      cases he.symm.trans (hdata hop)
  · intro h
    cases he : s.encState with
    | eIdle =>
      exact ⟨fun hop => ⟨he, Nat.le_of_not_lt fun hn => h .encLenRange ⟨hop, he, hn⟩⟩,
        fun hop => absurd ⟨hop, he⟩ (h .encIdle)⟩
    | ePayload => exact ⟨fun hop => absurd ⟨hop, he⟩ (h .encBusy), fun _ => he⟩

/-- An operation adds no fault to the log exactly where the host keeps its duties. -/
theorem applyOp_faultFree_iff {w : OpWord} {s t : State} (h : applyOp w s = .next t) :
    t.faultFree ↔ s.faultFree ∧ KeepsDuty w s := by
  have hduty : t.out.fault = none ↔ KeepsDuty w s := by
    simp only [keepsDuty_iff, ← applyOp_fault_iff h, Option.eq_none_iff_forall_ne_some, ne_eq]
  rw [State.faultFree, (applyOp_traces h).2.2, List.append_eq_nil_iff, Option.toList_eq_nil_iff, hduty]
  rfl

/-! ### The host's duties over a run -/

/-- Duties kept in a run were kept in every part of it from reset. -/
theorem EncDutiesKept.before {before rest : List OpWord} (h : EncDutiesKept (before ++ rest)) :
    EncDutiesKept before := by
  rintro vs ws w u rfl hu
  exact h vs (ws ++ rest) w u (List.append_assoc _ _ _) hu

/-- Duties kept in a run are those kept before its last operation, and the last one. -/
theorem encDutiesKept_concat {ws : List OpWord} {w : OpWord} {u : State} (hu : runOps ws = .next u) :
    EncDutiesKept (ws ++ [w]) ↔ EncDutiesKept ws ∧ KeepsDuty w u := by
  refine ⟨fun h => ⟨h.before, h ws [] w u rfl hu⟩, fun ⟨hws, hw⟩ before rest v x heq hx => ?_⟩
  rcases List.eq_nil_or_concat' rest with rfl | ⟨rest, v', rfl⟩
  · obtain ⟨rfl, hv⟩ := List.append_inj' heq rfl
    cases hv
    cases hu.symm.trans hx
    exact hw
  · rw [← List.cons_append, ← List.append_assoc] at heq
    exact hws before rest v x (List.append_inj' heq rfl).1 hx

/-- A run has no fault in its log exactly where the host kept its encoder duties. -/
theorem runOps_faultFree_iff {ws : List OpWord} {t : State} (h : runOps ws = .next t) :
    t.faultFree ↔ EncDutiesKept ws := by
  induction ws using List.reverseRecOn generalizing t with
  | nil =>
    cases next_inj.mp (runOps_iff.mp h)
    exact ⟨fun _ before rest w u heq => by simp at heq, fun _ => rfl⟩
  | append_singleton ws w ih =>
    obtain ⟨u, hu, hw⟩ := runOps_concat_next.mp h
    rw [applyOp_faultFree_iff hw, ih hu, encDutiesKept_concat hu]

/-- `ERR` is 0 where none of its three bits is set. -/
theorem err_eq_zero {err : BitVec 3} (h : ∀ c, errSet err c = false) : err = 0 := by
  refine BitVec.eq_of_getLsbD_eq fun k hk => ?_
  match k, hk with
  | 0, _ => exact h .encBusy
  | 1, _ => exact h .encLenRange
  | 2, _ => exact h .encIdle

/-- With no fault in the log of a run no bit of `ERR` is set (10_state.md R30). -/
theorem runOps_err_eq_zero {ws : List OpWord} {t : State} (h : runOps ws = .next t) (hfree : t.faultFree) :
    t.err = 0 := by
  obtain ⟨-, -, hreset, -⟩ := invariantsAtReset
  have hlogged : ErrLogged t := applyOps_keeps applyOp_errLogged hreset (runOps_iff.mp h)
  refine err_eq_zero fun c => Bool.eq_false_of_not_eq_true fun hc => ?_
  have hmem := hlogged c hc
  rw [hfree] at hmem
  exact absurd hmem List.not_mem_nil

/-- Settles O59: an operation logs a fault exactly where it breaks a duty, every set bit of `ERR` is logged, and duties
kept in a run were kept in every part of it from reset. -/
theorem faultFreeRunsKeepTheDuties : Obligations.FaultFreeRunsKeepTheDuties := by
  refine ⟨fun ws t h hfree => ?_, fun ws t h => (runOps_faultFree_iff h).mpr⟩
  have hkept := (runOps_faultFree_iff h).mp hfree
  refine ⟨hkept, runOps_err_eq_zero h hfree, ?_⟩
  rintro before rest u rfl hu
  exact (runOps_faultFree_iff hu).mpr hkept.before

/-! ### The frames asked for and the frames sent (42_encoder.md R118) -/

theorem encWordsOf_append (vs ws : List OpWord) : encWordsOf (vs ++ ws) = encWordsOf vs ++ encWordsOf ws :=
  List.filter_append _ _

@[simp] theorem encWordsOf_rxWord (b : Byte) : encWordsOf [rxWord b] = [] := by simp [encWordsOf]
@[simp] theorem encWordsOf_encStartWord (n : Byte) : encWordsOf [encStartWord n] = [encStartWord n] := by
  simp [encWordsOf]
@[simp] theorem encWordsOf_encDataWord (b : Byte) : encWordsOf [encDataWord b] = [encDataWord b] := by
  simp [encWordsOf]

/-- The operations that opened a frame of `n` payload bytes and gave it the bytes `d`. -/
def openWords (n : Nat) (d : List Byte) : List OpWord := encStartWord (BitVec.ofNat 8 n) :: d.map encDataWord

/-- The operations of a whole frame are those that opened it and gave it its payload. -/
theorem encFrame_eq_openWords (p : List Byte) : Asm.encFrame p = openWords p.length p := rfl

theorem openWords_concat (n : Nat) (d : List Byte) (b : Byte) :
    openWords n (d ++ [b]) = openWords n d ++ [encDataWord b] := by simp [openWords]

/-- The encoder operations `ops` asked for what was sent by the state `t`: the same whole frames in the same order, and
then the same open frame if there is one. -/
inductive SentAsAsked (ops : List OpWord) (t : State) : Prop where
  | whole (ps : List (List Byte)) (idle : t.encState = .eIdle) (asked : ops = (ps.map Asm.encFrame).flatten)
      (sent : t.txBytes = (ps.map encodeFrame).flatten) (short : ∀ p ∈ ps, p.length ≤ 251)
  | opened (ps : List (List Byte)) (n : Nat) (d : List Byte) (busy : t.encState = .ePayload)
      (asked : ops = (ps.map Asm.encFrame).flatten ++ openWords n d)
      (sent : t.txBytes = (ps.map encodeFrame).flatten ++ (frameHead n ++ d))
      (short : ∀ p ∈ ps, p.length ≤ 251) (frame : OpenFrame t n d)

namespace SentAsAsked

variable {ops : List OpWord} {s t : State}

/-- It speaks of the encoder's registers and the transmit stream alone. -/
theorem of_eq (h : SentAsAsked ops s) (he : t.encState = s.encState) (hr : t.encRem = s.encRem)
    (ha : t.encAcc = s.encAcc) (htx : t.txBytes = s.txBytes) : SentAsAsked ops t := by
  cases h with
  | whole ps idle asked sent short => exact .whole ps (he.trans idle) asked (htx.trans sent) short
  | opened ps n d busy asked sent short frame =>
    exact .opened ps n d (he.trans busy) asked (htx.trans sent) short (frame.of_eq hr ha)

/-- Whole frames and one frame more. -/
theorem concat {ps : List (List Byte)} {p : List Byte} (idle : t.encState = .eIdle)
    (asked : ops = (ps.map Asm.encFrame).flatten ++ Asm.encFrame p)
    (sent : t.txBytes = (ps.map encodeFrame).flatten ++ encodeFrame p) (short : ∀ q ∈ ps, q.length ≤ 251)
    (hp : p.length ≤ 251) : SentAsAsked ops t := by
  refine .whole (ps ++ [p]) idle (by simp [asked]) (by simp [sent]) fun q hq => ?_
  rcases List.mem_append.mp hq with hq | hq
  · exact short q hq
  · rwa [List.mem_singleton.mp hq]

/-- A start that keeps the host's duties adds an empty frame or opens one (R111, R112). -/
theorem encStart {n : Byte} (hs : SentAsAsked ops s) (hduty : KeepsDuty (encStartWord n) s)
    (h : applyOp (encStartWord n) s = .next t) : SentAsAsked (ops ++ [encStartWord n]) t := by
  obtain ⟨hidle, hlen⟩ := hduty.1 (wordOp_encStartWord n)
  rw [wordData_encStartWord] at hlen
  cases hs with
  | opened ps m d busy => cases busy.symm.trans hidle
  | whole ps _ asked sent short =>
    rcases applyOp_encStart_cases h with ⟨hbusy, -⟩ | ⟨-, hlong, -⟩ | ⟨-, rfl, rfl⟩ | ⟨-, h1, h2, rfl⟩
    · cases hbusy.symm.trans hidle
    · exact absurd hlen (Nat.not_le_of_lt hlong)
    · have hempty : encodeFrame [] = [0x55, 0xAA, 4, 4] := by decide
      exact .concat (p := []) rfl (by rw [asked]; rfl) (by rw [sendFrom_txBytes, sent, hempty]) short (Nat.zero_le _)
    · refine .opened ps n.toNat [] rfl ?_ (by rw [sendFrom_txBytes, sent, List.append_nil]) short
        ⟨h2, h1, rfl, (csum_nil _).symm⟩
      rw [asked, openWords, BitVec.ofNat_toNat, BitVec.setWidth_eq]
      rfl

/-- A payload byte that keeps the host's duties continues the open frame or closes it (R115, R116). -/
theorem encData {b : Byte} (hs : SentAsAsked ops s) (hduty : KeepsDuty (encDataWord b) s)
    (h : applyOp (encDataWord b) s = .next t) : SentAsAsked (ops ++ [encDataWord b]) t := by
  have hbusy := hduty.2 (wordOp_encDataWord b)
  cases hs with
  | whole ps idle => cases idle.symm.trans hbusy
  | opened ps n d _ asked sent short frame =>
    have hasked : ops ++ [encDataWord b] = (ps.map Asm.encFrame).flatten ++ openWords n (d ++ [b]) := by
      rw [asked, openWords_concat, List.append_assoc]
    rcases applyOp_encData_cases h with ⟨hidle, -⟩ | ⟨-, hr, rfl⟩ | ⟨-, hr, rfl⟩
    · cases hidle.symm.trans hbusy
    · exact .opened ps n (d ++ [b]) rfl hasked
        (by rw [sendFrom_txBytes, sent, List.append_assoc, List.append_assoc]) short (frame.sendMore b hr)
    · have hlen := frame.length_last b hr
      refine .concat (p := d ++ [b]) rfl ?_ ?_ short (hlen.trans_le frame.length_le)
      · rw [encFrame_eq_openWords, hlen, hasked]
      · rw [sendFrom_txBytes, sent, List.append_assoc, frame.encodeFrame_last b hr]

end SentAsAsked

/-- A fault-free run without `RESET` sent what its encoder operations asked for. -/
theorem runOps_sentAsAsked {ws : List OpWord} {t : State} (h : runOps ws = .next t) (hfree : t.faultFree)
    (hno : ∀ w ∈ ws, wordOp w ≠ .reset) : SentAsAsked (encWordsOf ws) t := by
  induction ws using List.reverseRecOn generalizing t with
  | nil =>
    cases next_inj.mp (runOps_iff.mp h)
    exact .whole [] rfl rfl rfl (by simp)
  | append_singleton ws w ih =>
    obtain ⟨u, hu, hw⟩ := runOps_concat_next.mp h
    obtain ⟨hufree, hduty⟩ := (applyOp_faultFree_iff hw).mp hfree
    have hsent := ih hu hufree fun v hv => hno v (List.mem_append_left _ hv)
    rw [encWordsOf_append]
    rcases opWord_cases w with ⟨b, rfl⟩ | ⟨n, rfl⟩ | ⟨b, rfl⟩ | ⟨d, rfl⟩
    · obtain ⟨-, rfl⟩ := applyOp_rxWord_next.mp hw
      rw [encWordsOf_rxWord, List.append_nil]
      exact hsent.of_eq rfl rfl rfl (afterRx_txBytes b u)
    · rw [encWordsOf_encStartWord]
      exact hsent.encStart hduty hw
    · rw [encWordsOf_encDataWord]
      exact hsent.encData hduty hw
    · exact absurd (wordOp_opWord _ _) (hno _ (List.mem_append_right _ (List.mem_singleton_self _)))

/-- Settles O60, by induction over the run: with no fault a frame starts only where none is open and gets its payload
byte for byte, so the operations and the stream are cut into the same frames. -/
theorem faultFreeRunsSendWhatWasAsked : Obligations.FaultFreeRunsSendWhatWasAsked := by
  intro ws t h hfree hno
  cases runOps_sentAsAsked h hfree hno with
  | whole ps idle asked sent short =>
    exact ⟨ps, [], [], by rw [asked, List.append_nil], by rw [sent, List.append_nil], short, fun _ => ⟨rfl, rfl⟩,
      fun hbusy => (by cases idle.symm.trans hbusy)⟩
  | opened ps n d busy asked sent short frame =>
    exact ⟨ps, _, _, asked, sent, short, fun hidle => (by cases busy.symm.trans hidle),
      fun _ => ⟨n, d, rfl, rfl, frame⟩⟩

end Sys2Proof.Machine
end

section
/-! PROOFS. Hazards and reset (70_reset_and_hazards.md): the traces (O34), how an open frame ends (O29), bytes without a
header (O22), how long a delivered payload stays in `BUF` (O53), and the sources of reset (O38). -/

namespace Sys2Proof.Machine

/-! ### The traces (R150) -/

theorem RxEvent.toList_eq (e : RxEvent) : e.toList = if e = .none then [] else [e] := by
  cases e <;> rfl

/-- Settles O34: an operation's record joins the traces, and a step without an operation is silent. -/
theorem tracesRecordEveryStep : Obligations.TracesRecordEveryStep := by
  intro s t h
  rw [← RxEvent.toList_eq]
  rcases step_op_cases h with ⟨-, rfl⟩ | ⟨w, rest, -, hw⟩
  · simp
  · exact applyOp_traces (s := { s with pending := rest }) hw

/-! ### How an open frame ends (R144) -/

/-- Of the rows that run while a frame is open, only `E_DATA_LAST` and `RESET` close it. -/
theorem exec_closes_frame {i : Instr} {s t : State} (h : exec i s = .next t) (hs : s.encState = .ePayload)
    (ht : t.encState = .eIdle) :
    (i.op = .reset ∧ t.decState = .idle) ∨ (s.encRem = 1 ∧ ∃ b, i = .eDataLast b) := by
  have hw := applyOp_encodeWord h
  have hsel := selectRow_of_exec h
  have hchange : t.encState ≠ s.encState := by simp [hs, ht]
  rw [encodeWord] at hw hsel
  cases hop : i.op with
  | rx => exact absurd (congrArg State.encState (exec_rx_eq hop h)) hchange
  | encStart =>
    rw [hop] at hw
    cases (applyOp_encStart_busy i.data hs).symm.trans hw
    exact absurd rfl hchange
  | encData =>
    rw [hop] at hw hsel
    rcases applyOp_encData_cases hw with ⟨hidle, -⟩ | ⟨-, -, rfl⟩ | ⟨-, hone, -⟩
    · cases hidle.symm.trans hs
    · exact absurd hs.symm hchange
    · have hrow := (selectRow_encData_last i.data hs hone).symm.trans hsel
      exact .inr ⟨hone, _, (Except.ok.inj hrow).symm⟩
  | reset =>
    rw [hop] at hw
    rw [applyOp_reset_next (wordOp_opWord _ _) hw]
    exact .inl ⟨rfl, rfl⟩

/-- `ENC_START` opens a frame with no payload byte accepted (R111). -/
theorem openFrame_start (s : State) {n : Byte} (h1 : 1 ≤ n.toNat) (h2 : n.toNat ≤ 251) :
    OpenFrame (sendFrom (frameHead n.toNat) .ePayload n (lenByte n.toNat) s) n.toNat [] :=
  ⟨h2, h1, rfl, (csum_nil _).symm⟩

/-- Fewer payload bytes than an open frame still expects leave it open (R115). -/
theorem applyOps_openFrame {n : Nat} {d q : List Byte} {s : State} (he : s.encState = .ePayload)
    (hopen : OpenFrame s n d) (hq : d.length + q.length < n) :
    ∃ t, applyOps (q.map encDataWord) s = .next t ∧ t.encState = .ePayload := by
  induction q generalizing s d with
  | nil => exact ⟨s, rfl, he⟩
  | cons b q ih =>
    have hrem := hopen.rem_eq
    rw [List.length_cons] at hq
    have hmore : 2 ≤ s.encRem.toNat := by omega
    have hq' : (d ++ [b]).length + q.length < n := by
      rw [List.length_append, List.length_singleton]
      omega
    obtain ⟨t, ht, hbusy⟩ := ih rfl (hopen.sendMore b hmore) hq'
    exact ⟨t, applyOps_cons_next.mpr ⟨_, applyOp_encData_more b he hmore, ht⟩, hbusy⟩

/-- Settles O29: a frame just started stays open with fewer bytes than announced, which makes every
start `ENC_BUSY`, and the last of them closes it, which makes every further byte `ENC_IDLE`. -/
theorem encoderSequencing : Obligations.EncoderSequencing := by
  refine ⟨fun i s t => exec_closes_frame, fun s a n d he h1 h2 h _ => ?_⟩
  obtain ⟨u, hu, ha⟩ := applyOps_cons_next.mp h
  cases (applyOp_encStart_open he h1 h2).symm.trans hu
  have hopen := openFrame_start s h1 h2
  refine ⟨fun hshort => ?_, fun hfull => ?_⟩
  · obtain ⟨t, ht, hbusy⟩ := applyOps_openFrame (q := d) rfl hopen (by simpa using hshort)
    cases ht.symm.trans ha
    exact ⟨hbusy, fun m => ⟨_, applyOp_encStart_busy m hbusy, rfl⟩⟩
  · obtain ⟨t, ht, hidle, -⟩ := applyOps_closeFrame (q := d) rfl hopen (by simpa using hfull)
    cases ht.symm.trans ha
    exact ⟨hidle, fun b => ⟨_, applyOp_encData_idle b hidle, rfl⟩⟩

/-! ### Bytes without a header (R141) -/

/-- The decoder looks for a header, and with the bytes `bs` still to come it finds none. -/
structure FindsNoHeader (bs : List Byte) (s : State) : Prop where
  seeking : s.decState = .idle ∨ s.decState = .header2
  noHeader : ¬ [Config.sync1, Config.sync2] <:+: s.frameSoFar ++ bs

section
variable {b : Byte} {bs : List Byte} {s : State}

/-- With no header to find, `Header2` is entered from `Idle` alone and always left for `Idle` (R91, R92, R94). -/
theorem FindsNoHeader.state_afterRx (h : FindsNoHeader (b :: bs) s) :
    (afterRx b s).decState = if s.decState = .idle ∧ b = Config.sync1 then .header2 else .idle := by
  rcases h.seeking with hst | hst
  · rw [afterRx_idle b hst, emitNothing_eq]
    simp [hst]
  · have hb : b ≠ Config.sync2 := by
      rintro rfl
      exact h.noHeader ⟨[], bs, by rw [frameSoFar_header2 hst]; rfl⟩
    rw [afterRx_header2 b hst, emitNothing_eq, if_neg hb, if_neg (by simp [hst])]

/-- One byte received: what counts of the bytes so far and to come is an end of what counted, so it holds no header. -/
theorem FindsNoHeader.afterRx (h : FindsNoHeader (b :: bs) s) : FindsNoHeader bs (afterRx b s) := by
  have hstate := h.state_afterRx
  split at hstate
  · next hsync =>
    obtain ⟨hst, rfl⟩ := hsync
    refine ⟨.inr hstate, ?_⟩
    have hno := h.noHeader
    rw [frameSoFar_idle hst] at hno
    rwa [frameSoFar_header2 hstate]
  · refine ⟨.inl hstate, fun hin => h.noHeader ?_⟩
    rw [frameSoFar_idle hstate, List.nil_append] at hin
    exact hin.trans ⟨s.frameSoFar ++ [b], [], by simp⟩

theorem FindsNoHeader.rxEvents_afterRx (h : FindsNoHeader bs s) (b : Byte) :
    (Machine.afterRx b s).rxEvents = s.rxEvents := by
  have hst : s.decState ≠ .waitCSum := by rcases h.seeking with hst | hst <;> simp [hst]
  rw [afterRx_rxEvents, afterRx_out_rx, if_neg hst]
  exact List.append_nil _

/-- All of the bytes received: each runs, none brings an event, and the decoder still looks for a header. -/
theorem FindsNoHeader.applyOps_rxWords (h : FindsNoHeader bs s) :
    applyOps (bs.map rxWord) s = .next (afterBytes bs s) ∧ (afterBytes bs s).rxEvents = s.rxEvents ∧
      FindsNoHeader [] (afterBytes bs s) := by
  induction bs generalizing s with
  | nil => exact ⟨rfl, rfl, h⟩
  | cons b bs ih =>
    have hcnt : s.decState = .receiving → s.decCnt.val < 251 := by rcases h.seeking with hst | hst <;> simp [hst]
    obtain ⟨hrun, hev, hend⟩ := ih h.afterRx
    exact ⟨applyOps_cons_next.mpr ⟨_, applyOp_rxWord b hcnt, hrun⟩, hev.trans (h.rxEvents_afterRx b), hend⟩

end

/-- Settles O22, by induction over the bytes: from `Idle` the decoder finds no header in them. -/
theorem noHeaderNoFrame : Obligations.NoHeaderNoFrame := by
  intro s bs rest _ hst hno hpend
  have hseek : FindsNoHeader bs { s with pending := rest } := by
    refine ⟨.inl hst, ?_⟩
    rw [frameSoFar_idle (s := { s with pending := rest }) hst]
    rintro ⟨pre, post, heq⟩
    exact hno pre post (by simpa using heq.symm)
  obtain ⟨hops, hev, hend⟩ := hseek.applyOps_rxWords
  have hrun := run_of_pending hpend hops
  rw [List.length_map] at hrun
  exact ⟨_, hrun, hev, afterBytes_pending _ _, afterBytes_faultLog _ _, hend.seeking⟩

/-! ### How long a delivered payload stays in `BUF` (R145) -/

/-- A received byte is at most one byte more of a frame. -/
theorem frameSoFar_length_afterRx (b : Byte) (s : State) :
    (afterRx b s).frameSoFar.length ≤ s.frameSoFar.length + 1 := by
  cases hst : s.decState with
  | idle =>
    rw [afterRx_idle b hst, frameSoFar_idle hst, emitNothing_eq]
    split <;> simp [State.frameSoFar]
  | header2 =>
    rw [afterRx_header2 b hst, frameSoFar_header2 hst, emitNothing_eq]
    split <;> simp [State.frameSoFar]
  | headerOk =>
    rw [afterRx_headerOk b hst, frameSoFar_headerOk hst, emitNothing_eq]
    split <;> simp [State.frameSoFar, State.payload]
  | receiving =>
    have hcnt := cntSucc_le s.decCnt
    rw [afterRx_receiving b hst, frameSoFar_inFrame (.inl hst), emitNothing_eq, storeByte]
    split <;> simpa [State.frameSoFar, State.payload] using hcnt
  | waitCSum =>
    rw [afterRx_waitCSum b hst, emitRx_eq, frameSoFar_idle rfl]
    exact Nat.zero_le _

/-- A frame of which fewer than three bytes are received is not in its payload. -/
theorem decState_ne_receiving_of_length {s : State} (h : s.frameSoFar.length < 3) : s.decState ≠ .receiving := by
  intro hst
  rw [frameSoFar_inFrame (.inl hst)] at h
  simp only [List.length_cons] at h
  omega

/-- Operations that receive no byte past the third of a frame leave `BUF` as it is. -/
theorem applyOps_buf {ws : List OpWord} {s t : State} (hno : ∀ w ∈ ws, wordOp w ≠ .reset)
    (hlen : s.frameSoFar.length + (rxBytesOf ws).length ≤ 3) (h : applyOps ws s = .next t) : t.buf = s.buf := by
  induction ws generalizing s with
  | nil => rw [next_inj.mp h]
  | cons w ws ih =>
    obtain ⟨hw, hws⟩ := List.forall_mem_cons.mp hno
    obtain ⟨u, hu, ht⟩ := applyOps_cons_next.mp h
    rw [← List.singleton_append, rxBytesOf_append, List.length_append] at hlen
    by_cases hrx : wordOp w = .rx
    · rcases applyOp_cases hu with ⟨b, rfl, rfl⟩ | ⟨hop, -⟩ | ⟨hop, -⟩
      · rw [rxBytesOf_rxWord, List.length_singleton] at hlen
        have hgrow := frameSoFar_length_afterRx b s
        exact (ih hws (by omega) ht).trans (afterRx_buf b (decState_ne_receiving_of_length (by omega)))
      · rw [hrx] at hop
        rcases hop with hop | hop <;> cases hop
      · exact absurd hop hw
    · have hregs := applyOp_decRegs hrx hw hu
      rw [rxBytesOf_of_ne_rx hrx, List.length_nil, ← frameSoFar_of_decRegs hregs] at hlen
      exact (ih hws (by omega) ht).trans (congrArg DecRegs.buf hregs)

/-- Settles O53: a delivery takes the decoder to `Idle`, from where three bytes are at most a header and a length byte,
and none of these is stored. -/
theorem readWindow : Obligations.ReadWindow := by
  intro s a t b ws ha p hp hno hlen h _
  obtain ⟨-, hst, rfl⟩ := applyOp_delivers ha hp
  obtain ⟨-, rfl⟩ := applyOp_rxWord_next.mp ha
  have hidle : (afterRx b s).frameSoFar = [] := frameSoFar_idle (by rw [afterRx_waitCSum b hst, emitRx_eq])
  have hbuf : t.buf = s.buf := by
    rw [applyOps_buf hno (by simpa [hidle] using hlen) h, afterRx_waitCSum b hst, emitRx_eq]
  rw [hbuf, State.payload, Memory.slice_length]

/-! ### The sources of reset (R140) -/

/-- No output tells the state after `RESET` from the power-on state: neither is in a frame of either unit. -/
theorem resetRegisters_same_reset (s : State) :
    SameDecoder (emitNothing (resetRegisters s)) State.reset ∧
      SameEncoder (emitNothing (resetRegisters s)) State.reset := by
  rw [emitNothing_eq]
  exact ⟨sameDecoder_outside_frame rfl (by simp) (by simp), rfl, rfl, fun h => (by simp at h)⟩

/-- Settles O38: `RESET` and a cycle with `rst` both reset the registers, and leave a state outside any frame. -/
theorem twoSourcesOfReset : Obligations.TwoSourcesOfReset := by
  refine ⟨⟨rfl, rfl, rfl⟩, fun s t d h => ?_, fun p q i hrst h => ?_⟩
  · rw [applyOp_reset_next (wordOp_encodeWord (.reset d)) (applyOp_encodeWord h)]
    exact ⟨rfl, rfl, rfl, resetRegisters_same_reset s⟩
  · rw [clock_of_rst hrst, Host.Outcome.next.injEq] at h
    rw [← h]
    exact ⟨rfl, rfl, rfl, resetRegisters_same_reset p.core⟩

end Sys2Proof.Machine
end
